-- ==== Sys2Proof/Word.lean ====
section
/-! DEFINITION. The words of A8FC (00_scope.md R6: all widths are fixed). -/

namespace Sys2Proof

/-- A byte of a stream or a cell of a buffer. -/
abbrev Byte := BitVec 8

/-- A 16-bit value: a checksum, a length, a sequence number, a register as read. -/
abbrev Half := BitVec 16

/-- A host command word (30_encoding.md R100). -/
abbrev CmdWord := BitVec 24

/-- A response word, ok in bit 16 and data in bits 15:0 (30_encoding.md R104). -/
abbrev RespWord := BitVec 17

/-- The index registers `tx_idx` and `rx_cnt` (10_state.md R30, R35). -/
abbrev Index := BitVec 17

/-- A byte on a stream with its `last` flag (00_scope.md R7). -/
abbrev StreamByte := Byte × Bool

end Sys2Proof
end

