-- ==== Sys2Proof/Syntax.lean ====
section
/-! DEFINITION. The rows of spec/opcode_table.json: eleven host commands (30_encoding.md R102) and the two wire rows. -/

namespace Sys2Proof

/-- The fields of a wire frame (30_encoding.md R90). The header bytes are constants, so they are no field. -/
structure WireFrame where
  ctrl    : Byte
  len     : Half
  seq     : Half
  cmdId   : Byte
  payload : List Byte
  crc16   : Half
  deriving DecidableEq, Repr

/-- The fields of the one frame the spec prints, `55 66 01 01 00 00 00 08 01 d1 12` (30_encoding.md R108). -/
def autoCenterFrame : WireFrame :=
  { ctrl := 0x01, len := 0x0001, seq := 0x0000, cmdId := 0x08, payload := [0x01], crc16 := 0x12D1 }

/-- The eight host-readable registers (10_state.md R21). -/
inductive RegName
  | status | crcAcc | seq | txLen | rxCmd | rxLen | rxSeq | rxCtrl
  deriving DecidableEq, Repr

/-- One constructor for each row of the opcode table. The operands of commands are as the word carries them
(30_encoding.md R101). `frame` and `autoCenter` are the wire rows: such a frame presented at the RX stream (log 6). -/
inductive Instr
  | nop
  | crcClear
  | crcByte (imm8 : Byte)
  | txClear
  | txPush (imm8 : Byte)
  | txSend (imm8 : Byte)
  | setSeq (imm16 : Half)
  | rxRead (imm16 : Half)
  | rxRelease
  | get (imm8 : Byte)
  | clrErr
  | frame (f : WireFrame)
  | autoCenter
  deriving DecidableEq, Repr

/-- The rows a host issues on the command port, as opposed to the wire rows. -/
def Instr.isCommand : Instr → Bool
  | .nop => true
  | .crcClear => true
  | .crcByte _ => true
  | .txClear => true
  | .txPush _ => true
  | .txSend _ => true
  | .setSeq _ => true
  | .rxRead _ => true
  | .rxRelease => true
  | .get _ => true
  | .clrErr => true
  | .frame _ => false
  | .autoCenter => false

end Sys2Proof
end

