-- ==== Sys2Proof/WellFormed.lean ====
section
/-! DEFINITION. Which instructions have an encoding of their own. -/

namespace Sys2Proof

/-- A frame is `10 + L` bytes with `L` its own length field (30_encoding.md R90), and the frame of R108 is written
`autoCenter` (log 16). -/
def WireFrame.wellFormed (f : WireFrame) : Bool :=
  decide (f.len.toNat = f.payload.length) && decide (f ≠ autoCenterFrame)

/-- The legal instructions: `GET` names one of the registers 0 to 7 (30_encoding.md R103), a frame is a frame. Every
other operand is used as is (R101). -/
def Instr.wellFormed : Instr → Bool
  | .nop => true
  | .crcClear => true
  | .crcByte _ => true
  | .txClear => true
  | .txPush _ => true
  | .txSend _ => true
  | .setSeq _ => true
  | .rxRead _ => true
  | .rxRelease => true
  | .get imm8 => decide (imm8.toNat < 8)
  | .clrErr => true
  | .frame f => f.wellFormed
  | .autoCenter => true

end Sys2Proof
end

