-- ==== Sys2Proof/Decode.lean ====
section
/-! DEFINITION. The encodings of 30_encoding.md: byte order, the host command word, the wire frame, the decoder, the
encoder, and the assembler's view of a command word (R106). -/

namespace Sys2Proof

/-! ## Constants and byte order (00_scope.md R5, section 6; 20_memory.md R61) -/

def hdr0 : Byte := 0x55
def hdr1 : Byte := 0x66
/-- The control byte of every emitted frame; never checked on receive (30_encoding.md R92). -/
def ctrlConst : Byte := 0x01
def prefixLen : Nat := 8
def fcsLen : Nat := 2
def frameMin : Nat := 10

/-- `v[7:0]`. -/
def lo8 (v : Half) : Byte := v.extractLsb' 0 8
/-- `v[15:8]`. -/
def hi8 (v : Half) : Byte := v.extractLsb' 8 8
/-- The little-endian two-byte form. -/
def le16 (v : Half) : List Byte := [lo8 v, hi8 v]
/-- The inverse of `le16`: `{hi, lo}`. -/
def unle16 (lo hi : Byte) : Half := hi ++ lo
/-- `v[7:0] <- b`. -/
def setLo8 (v : Half) (b : Byte) : Half := unle16 b (hi8 v)
/-- `v[15:8] <- b`. -/
def setHi8 (v : Half) (b : Byte) : Half := unle16 (lo8 v) b

/-! ## Why a decoder refuses -/

/-- The decoder's refusals, by name. On the command port each of the first four faults IllegalCommand
(30_encoding.md R103); a byte sequence refused by one of the last three is no frame (R90, R99). -/
inductive DecodeReject
  | unknownOpcode (op : Byte)
  | operandNotZero
  | highByteNotZero
  | registerUnassigned (imm8 : Byte)
  | frameTooShort
  | frameHeader
  | frameLength
  deriving DecidableEq, Repr

/-! ## The host command word (30_encoding.md R100 to R103) -/

def opOf (w : CmdWord) : Byte := w.extractLsb' 16 8
def argOf (w : CmdWord) : Half := w.extractLsb' 0 16
def argHighOf (w : CmdWord) : Byte := w.extractLsb' 8 8
def imm8Of (w : CmdWord) : Byte := w.extractLsb' 0 8

/-- Format N: no operand, `w[15:0]` must be zero (R101). -/
def formatN (w : CmdWord) (i : Instr) : Except DecodeReject Instr :=
  if argOf w = 0 then .ok i else .error .operandNotZero

/-- Format B: `w[15:8]` must be zero, `imm8 = w[7:0]` (R101). -/
def formatB (w : CmdWord) (k : Byte → Except DecodeReject Instr) : Except DecodeReject Instr :=
  if argHighOf w = 0 then k (imm8Of w) else .error .highByteNotZero

/-- Format H: `imm16 = w[15:0]` (R101). -/
def formatH (w : CmdWord) (k : Half → Instr) : Except DecodeReject Instr :=
  .ok (k (argOf w))

/-- The register number of `GET` must be assigned (R103). -/
def decodeGet (imm8 : Byte) : Except DecodeReject Instr :=
  if imm8.toNat < 8 then .ok (.get imm8) else .error (.registerUnassigned imm8)

/-- The opcode map of R102 with the checks of 43_host_access.md R201 line 1. -/
def decodeCommand (w : CmdWord) : Except DecodeReject Instr :=
  if opOf w = 0x00 then formatN w .nop
  else if opOf w = 0x01 then formatN w .crcClear
  else if opOf w = 0x02 then formatB w fun b => .ok (.crcByte b)
  else if opOf w = 0x10 then formatN w .txClear
  else if opOf w = 0x11 then formatB w fun b => .ok (.txPush b)
  else if opOf w = 0x12 then formatB w fun b => .ok (.txSend b)
  else if opOf w = 0x13 then formatH w .setSeq
  else if opOf w = 0x20 then formatH w .rxRead
  else if opOf w = 0x21 then formatN w .rxRelease
  else if opOf w = 0x30 then formatB w decodeGet
  else if opOf w = 0x31 then formatN w .clrErr
  else .error (.unknownOpcode (opOf w))

/-! ## The wire frame (30_encoding.md R90, R108) -/

/-- A frame read from its bytes; the frame of R108 has its own row (log 16). -/
def wireInstr (f : WireFrame) : Instr :=
  if f = autoCenterFrame then .autoCenter else .frame f

/-- The frame a byte sequence is, or why it is none: fewer than 10 bytes, other header bytes, or a length other than
`10 + L` (R90). The checksum is a field of the frame; whether it is right is the validator's question (R99). -/
def decodeWire (bytes : List Byte) : Except DecodeReject Instr :=
  match bytes with
  | h0 :: h1 :: ctrl :: l0 :: l1 :: s0 :: s1 :: id :: rest =>
    if rest.length < fcsLen then .error .frameTooShort
    else if h0 ≠ hdr0 ∨ h1 ≠ hdr1 then .error .frameHeader
    else if rest.length ≠ (unle16 l0 l1).toNat + fcsLen then .error .frameLength
    else
      match rest.drop (unle16 l0 l1).toNat with
      | [c0, c1] =>
        .ok (wireInstr
          { ctrl := ctrl, len := unle16 l0 l1, seq := unle16 s0 s1, cmdId := id,
            payload := rest.take (unle16 l0 l1).toNat, crc16 := unle16 c0 c1 })
      | _ => .error .frameLength
  | _ => .error .frameTooShort

/-! ## Both ports -/

/-- What carries an instruction: a word on the command port, or a byte sequence on the wire. -/
inductive Encoded
  | command (w : CmdWord)
  | wire (bytes : List Byte)
  deriving DecidableEq, Repr

/-- The decoder, total. -/
def decode : Encoded → Except DecodeReject Instr
  | .command w => decodeCommand w
  | .wire bytes => decodeWire bytes

/-! ## The encoder -/

/-- `(op << 16) | arg` (R106). -/
def cmdWord (op : Byte) (arg : Half) : CmdWord := op ++ arg

/-- A byte operand with the zero byte above it (R101, format B). -/
def byteArg (imm8 : Byte) : Half := (0 : Byte) ++ imm8

/-- The bytes of a frame, in index order (R90). -/
def frameBytes (f : WireFrame) : List Byte :=
  [hdr0, hdr1, f.ctrl] ++ le16 f.len ++ le16 f.seq ++ [f.cmdId] ++ f.payload ++ le16 f.crc16

/-- The bytes of R108. -/
def autoCenterBytes : List Byte := [0x55, 0x66, 0x01, 0x01, 0x00, 0x00, 0x00, 0x08, 0x01, 0xD1, 0x12]

/-- The encoding of each instruction (R90, R102, R108). -/
def encode : Instr → Encoded
  | .nop => .command (cmdWord 0x00 0)
  | .crcClear => .command (cmdWord 0x01 0)
  | .crcByte imm8 => .command (cmdWord 0x02 (byteArg imm8))
  | .txClear => .command (cmdWord 0x10 0)
  | .txPush imm8 => .command (cmdWord 0x11 (byteArg imm8))
  | .txSend imm8 => .command (cmdWord 0x12 (byteArg imm8))
  | .setSeq imm16 => .command (cmdWord 0x13 imm16)
  | .rxRead imm16 => .command (cmdWord 0x20 imm16)
  | .rxRelease => .command (cmdWord 0x21 0)
  | .get imm8 => .command (cmdWord 0x30 (byteArg imm8))
  | .clrErr => .command (cmdWord 0x31 0)
  | .frame f => .wire (frameBytes f)
  | .autoCenter => .wire autoCenterBytes

/-! ## Words as the opcode table numbers them -/

/-- The bytes of a wire row from a number whose bits 7:0 are byte 0 (30_encoding.md R90): `10 + L` bytes, `L` the
length field the number carries (log 17). -/
def wireBytes (w : Nat) : List Byte :=
  (List.range (frameMin + w / 2 ^ 24 % 2 ^ 16)).map fun i => BitVec.ofNat 8 (w >>> (8 * i))

/-- Where a table row of `nbits` bits is presented: the command word is the one 24-bit row, every other row is a wire
row (log 17). -/
def tableWord (nbits w : Nat) : Encoded :=
  if nbits = 24 then .command (BitVec.ofNat 24 w) else .wire (wireBytes (w % 2 ^ nbits))

/-- What the decoder reads from a row of the opcode table. -/
def decodeTableWord (nbits w : Nat) : Option Instr :=
  (decode (tableWord nbits w)).toOption

/-! ## The opcode table and the assembler (30_encoding.md R102, R106) -/

/-- A row of the host part of the table: a word `w` of the command satisfies `w & mask = match` (R102). -/
structure HostRow where
  mnemonic : String
  op       : Byte
  mask     : CmdWord
  deriving DecidableEq, Repr

def maskN : CmdWord := 0xFFFFFF
def maskB : CmdWord := 0xFFFF00
def maskH : CmdWord := 0xFF0000

/-- The eleven host rows. -/
def hostRows : List HostRow :=
  [⟨"NOP", 0x00, maskN⟩, ⟨"CRC_CLEAR", 0x01, maskN⟩, ⟨"CRC_BYTE", 0x02, maskB⟩, ⟨"TX_CLEAR", 0x10, maskN⟩,
   ⟨"TX_PUSH", 0x11, maskB⟩, ⟨"TX_SEND", 0x12, maskB⟩, ⟨"SET_SEQ", 0x13, maskH⟩, ⟨"RX_READ", 0x20, maskH⟩,
   ⟨"RX_RELEASE", 0x21, maskN⟩, ⟨"GET", 0x30, maskB⟩, ⟨"CLR_ERR", 0x31, maskN⟩]

/-- The number `match` of a row: `op << 16` (R102). -/
def HostRow.pattern (r : HostRow) : CmdWord := cmdWord r.op 0

/-- A word belongs to a row. -/
def HostRow.covers (r : HostRow) (w : CmdWord) : Bool := (w &&& r.mask) == r.pattern

/-- The number of a register (10_state.md R21). -/
def regNumber : RegName → Byte
  | .status => 0
  | .crcAcc => 1
  | .seq => 2
  | .txLen => 3
  | .rxCmd => 4
  | .rxLen => 5
  | .rxSeq => 6
  | .rxCtrl => 7

/-- An operand of a written command: none, a number, or a register name standing for its number (R106). -/
inductive AsmOperand
  | none
  | num (n : Nat)
  | reg (r : RegName)
  deriving DecidableEq, Repr

/-- The number an operand stands for. -/
def AsmOperand.value : AsmOperand → Nat
  | .none => 0
  | .num n => n
  | .reg r => (regNumber r).toNat

/-- An operand a command may be written with: one of format B or H needs one, and a register name stands only in
`GET` (R106). DESIGN CHOICE (log 19): R106 does not say whether a number that does not fit its format may be written;
any number below 2^16 may, in every format, and `NOP 5` or `TX_PUSH 0x1FF` gives an illegal word. -/
def HostRow.takes (r : HostRow) : AsmOperand → Bool
  | .none => decide (r.mask = maskN)
  | .num n => decide (n < 2 ^ 16)
  | .reg _ => decide (r.op = 0x30)

/-- The word of a written command, `(op << 16) | operand` (R106); none for a mnemonic the table lacks or an operand
that cannot be written there. -/
def assemble (mnemonic : String) (operand : AsmOperand) : Option CmdWord :=
  match hostRows.find? (fun r => r.mnemonic == mnemonic) with
  | some r => if r.takes operand then some (cmdWord r.op (BitVec.ofNat 16 operand.value)) else none
  | none => none

end Sys2Proof
end

