-- ==== Sys2Proof/Config.lean ====
section
/-! DEFINITION. What is fixed for the life of one block: the one open parameter (00_scope.md R4, R6). The constants of
R5 stand in Decode.lean (the wire's) and in Machine/Crc.lean (the CRC's). -/

namespace Sys2Proof

/-- `PAYLOAD_MAX`, the number of cells of each payload buffer, 0 to 65535 (00_scope.md R4). No step writes it. -/
structure Config where
  payloadMax : Fin 65536
  deriving DecidableEq, Repr

/-- The value of every example of the spec that names no other (00_scope.md R4).
DESIGN CHOICE for the state after reset (log 8). -/
def Config.default : Config := { payloadMax := 65535 }

end Sys2Proof
end

