-- ==== Sys2Proof/Machine/State.lean ====
section
/-! DEFINITION. The state of the block (10_state.md R20), its ports' outside (R47), the reasons a step can stop, and the
state after reset (R48). -/

namespace Sys2Proof.Machine

/-- A payload buffer: the cells that hold a value, by index (20_memory.md R60). A cell not listed holds no value a rule
lets anyone read (93_implementation_defined.md V1; log 9). -/
abbrev Memory := List Host.Cell

/-- `tx_state` (10_state.md R27). -/
inductive TxState
  | idle | send
  deriving DecidableEq, Repr

/-- `rx_state` (10_state.md R33); the value 3 is never taken, so it has no constructor (log 12). -/
inductive RxState
  | idle | recv | done
  deriving DecidableEq, Repr

/-- `rx_result` (10_state.md R34). -/
inductive RxResult
  | none | ok | malformed | checksumMismatch
  deriving DecidableEq, Repr

/-- The causes for which a host command faults (60_exceptions.md R253). -/
inductive Cause
  | illegalCommand | badState | overflow | noData
  deriving DecidableEq, Repr

/-- The registers the TX engine owns (10_state.md R25, R27 to R32). -/
structure TxEngine where
  seq   : Half
  state : TxState
  len   : Half
  cmd   : Byte
  idx   : Index
  crc   : Half
  buf   : Memory
  deriving DecidableEq, Repr

/-- The registers the RX engine owns (10_state.md R33 to R43). -/
structure RxEngine where
  state  : RxState
  result : RxResult
  cnt    : Index
  hdrBad : Bool
  ctrl   : Byte
  len    : Half
  seq    : Half
  cmd    : Byte
  crc    : Half
  fcs    : Half
  buf    : Memory
  deriving DecidableEq, Repr

/-- Who gets the next opportunity to act (00_scope.md R7, R8; log 1). `source` offers one byte, `datagram` one whole
datagram by consecutive bytes (log 6). -/
inductive Turn
  | host | source | datagram | sink | rstAssert | rstRelease
  deriving DecidableEq, Repr

/-- What stands at the ports (10_state.md R47): what the agents still have to present, in order, and what the block has
presented so far, in order. The model's own fields, no state of the block (log 1, 4, 5, 11). -/
structure Env where
  rst     : Bool
  turns   : List Turn
  hostIn  : List CmdWord
  rxIn    : List StreamByte
  respOut : List RespWord
  txOut   : List StreamByte
  deriving DecidableEq, Repr

/-- The whole state: `PAYLOAD_MAX`, the host port and CRC registers (10_state.md R24, R26), the two engines, the ports. -/
structure State where
  cfg    : Config
  crcAcc : Half
  err    : BitVec 4
  tx     : TxEngine
  rx     : RxEngine
  env    : Env
  deriving DecidableEq, Repr

/-- Why a step has no next state. None is an effect of a command: a command that faults goes on (60_exceptions.md R252). -/
inductive Fault
  /-- Raised by `step` when `turns` is empty: no agent acts any more, the run is over (70_reset_and_hazards.md R286). Safe. -/
  | noTurn
  /-- Raised by RX_READ or a TxByte step that reads a buffer cell nothing has written (93_implementation_defined.md V1);
  the invariants of 10_state.md R49 rule it out. Safe. -/
  | unwrittenCell
  /-- Raised by an access to a buffer cell at `PAYLOAD_MAX` or above, which does not exist (20_memory.md R69); ruled out
  by R49. Safe. -/
  | cellOutOfRange
  /-- Raised by a TxByte step with `tx_idx > 9 + tx_len`, for which 41_encode.md R158 gives no byte; ruled out by R49. Safe. -/
  | txIndexOutOfRange
  deriving DecidableEq, Repr

/-- Why an instruction has no meaning in this model. -/
inductive Refusal
  /-- Raised by `exec` for an instruction of the table without a meaning yet; no arm is left that does. Safe. -/
  | notModelled (mnemonic : String)
  deriving DecidableEq, Repr

/-- The TX registers after reset (10_state.md R48); no cell of `tx_buf` holds a value (R32; log 9). -/
def TxEngine.reset : TxEngine :=
  { seq := 0x0000, state := .idle, len := 0x0000, cmd := 0x00, idx := 0, crc := 0x0000, buf := [] }

/-- The RX registers after reset (10_state.md R48); no cell of `rx_buf` holds a value (R43; log 9). -/
def RxEngine.reset : RxEngine :=
  { state := .idle, result := .none, cnt := 0, hdrBad := false, ctrl := 0x00, len := 0x0000, seq := 0x0000,
    cmd := 0x00, crc := 0x0000, fcs := 0x0000, buf := [] }

/-- `rst` released, nobody with anything to present, nothing presented yet (log 1, 4, 5, 11). -/
def Env.reset : Env :=
  { rst := false, turns := [], hostIn := [], rxIn := [], respOut := [], txOut := [] }

/-- The machine right after reset (10_state.md R48, 70_reset_and_hazards.md R280). -/
def State.reset : State :=
  { cfg := Config.default, crcAcc := 0x0000, err := 0b0000, tx := TxEngine.reset, rx := RxEngine.reset,
    env := Env.reset }

end Sys2Proof.Machine
end

