-- ==== Sys2Proof/Machine/Flags.lean ====
section
/-! DEFINITION. The codes of states, results and causes, the fault mask and STATUS (10_state.md R26, R33, R34, R44;
60_exceptions.md R251, R253). -/

namespace Sys2Proof.Machine

/-- `tx_state` as a bit (10_state.md R27). -/
def txStateCode : TxState → BitVec 1
  | .idle => 0
  | .send => 1

/-- `rx_state` as two bits (10_state.md R33). -/
def rxStateCode : RxState → BitVec 2
  | .idle => 0
  | .recv => 1
  | .done => 2

/-- `rx_result` as two bits (10_state.md R34, 60_exceptions.md R251). -/
def rxResultCode : RxResult → BitVec 2
  | .none => 0
  | .ok => 1
  | .malformed => 2
  | .checksumMismatch => 3

/-- The code of a fault cause (60_exceptions.md R253). -/
def causeCode : Cause → Half
  | .illegalCommand => 1
  | .badState => 2
  | .overflow => 3
  | .noData => 4

/-- The bit of `err` of a cause: bit `code - 1` (60_exceptions.md R252). -/
def causeBit : Cause → BitVec 4
  | .illegalCommand => 0b0001
  | .badState => 0b0010
  | .overflow => 0b0100
  | .noData => 0b1000

/-- STATUS, assembled when it is read (10_state.md R44). -/
def statusWord (s : State) : Half :=
  (0 : BitVec 4) ++ s.err ++ (0 : BitVec 3) ++ txStateCode s.tx.state ++ rxResultCode s.rx.result ++
    rxStateCode s.rx.state

/-- The gate of 43_host_access.md R206. -/
def gateOpen (s : State) : Bool := decide (s.rx.state = .done ∧ s.rx.result = .ok)

end Sys2Proof.Machine
end

