-- ==== Sys2Proof/Machine/Ops.lean ====
section
/-! DEFINITION. The shared operations: buffer cells (20_memory.md R60, R68), responses (30_encoding.md R104), taking a
fault (60_exceptions.md R252) and acknowledging it (R258), the state tests of commands (43_host_access.md R201). -/

namespace Sys2Proof.Machine

/-! ## Buffers -/

/-- The canonical form: indices strictly rising. A cell not listed holds no value, so no entry equals what an unlisted
index reads as. -/
abbrev Memory.wf (m : Memory) : Prop := m.Pairwise fun c d => c.1 < d.1

/-- Every listed cell exists in a buffer of `size` cells (20_memory.md R69). -/
abbrev Memory.within (size : Nat) (m : Memory) : Prop := ∀ c ∈ m, c.1 < size

/-- The byte a cell holds, if anything has written it. -/
def Memory.read : Memory → Nat → Option Byte
  | [], _ => none
  | (k, v) :: m, a => if a = k then some v else Memory.read m a

/-- Write one cell. -/
def Memory.write : Memory → Nat → Byte → Memory
  | [], a, b => [(a, b)]
  | (k, v) :: m, a, b =>
    if a < k then (a, b) :: (k, v) :: m
    else if a = k then (a, b) :: m
    else (k, v) :: Memory.write m a b

/-- The bytes of the first `n` cells, if all hold a value. -/
def Memory.firstN (m : Memory) : Nat → Option (List Byte)
  | 0 => some []
  | n + 1 =>
    match Memory.firstN m n, Memory.read m n with
    | some bytes, some b => some (bytes ++ [b])
    | _, _ => none

/-- `MemRead(buf, i, 1)` (00_scope.md section 6) in a buffer of `size` cells. -/
def readCell (size : Nat) (m : Memory) (i : Nat) : Except Fault Byte :=
  if i < size then
    match Memory.read m i with
    | some b => .ok b
    | none => .error .unwrittenCell
  else .error .cellOutOfRange

/-- `MemWrite(buf, i, 1, b)` in a buffer of `size` cells. -/
def writeCell (size : Nat) (m : Memory) (i : Nat) (b : Byte) : Except Fault Memory :=
  if i < size then .ok (Memory.write m i b) else .error .cellOutOfRange

/-! ## Counting -/

/-- `sat17(n) = min(n, 0x1FFFF)` (00_scope.md section 6). -/
def sat17 (n : Nat) : Index := BitVec.ofNat 17 (min n 0x1FFFF)

/-! ## Responses and faults -/

/-- `{ok = 1, data = v}` (30_encoding.md R104). -/
def okResp (v : Half) : RespWord := (1 : BitVec 1) ++ v

/-- `{ok = 0, data = code}` (60_exceptions.md R252). -/
def faultResp (c : Cause) : RespWord := (0 : BitVec 1) ++ causeCode c

/-- Present a response on the port, after those already presented (10_state.md R47). -/
def present (r : RespWord) (s : State) : State :=
  { s with env := { s.env with respOut := s.env.respOut ++ [r] } }

/-- `respond(v)` (00_scope.md section 6). -/
def respond (v : Half) (s : State) : State := present (okResp v) s

/-- Taking a fault: nothing is written but the bit of the cause in `err`, and the response is the code
(60_exceptions.md R252, R257). -/
def takeFault (c : Cause) (s : State) : State :=
  present (faultResp c) { s with err := s.err ||| causeBit c }

/-- Acknowledging faults, the nearest thing to a return (60_exceptions.md R258): all four bits fall
(43_host_access.md R207). -/
def ackFaults (s : State) : State := { s with err := 0b0000 }

/-- The test of the staging commands: BadState while a frame is being emitted (41_encode.md R155). -/
def whenTxIdle (s : State) (k : Host.Outcome State Fault Refusal) : Host.Outcome State Fault Refusal :=
  if s.tx.state = .send then .next (takeFault .badState s) else k

/-- The gate: NoData unless a datagram is held and was found Ok (43_host_access.md R206). -/
def whenGateOpen (s : State) (k : Host.Outcome State Fault Refusal) : Host.Outcome State Fault Refusal :=
  if gateOpen s then k else .next (takeFault .noData s)

/-! ## Reset -/

/-- Asserting `rst`: every register at its reset value (70_reset_and_hazards.md R280). The cells of the buffers are then
unspecified, so none holds a value (10_state.md R48; log 10). What the agents hold and have been given stays (log 11). -/
def assertReset (s : State) : State :=
  { State.reset with cfg := s.cfg, env := { s.env with rst := true } }

/-- Releasing `rst`: the first steps see exactly the reset state (70_reset_and_hazards.md R280). -/
def releaseReset (s : State) : State := { s with env := { s.env with rst := false } }

end Sys2Proof.Machine
end

