-- ==== Sys2Proof/Machine/CrcUnit.lean ====
section
/-! DEFINITION. The commands of the CRC unit (40_crc.md R141, R142). -/

namespace Sys2Proof.Machine

/-- CRC_CLEAR (40_crc.md R141). -/
def execCrcClear (s : State) : Host.Outcome State Fault Refusal :=
  .next (respond 0 { s with crcAcc := crcInit })

/-- CRC_BYTE (40_crc.md R142). -/
def execCrcByte (imm8 : Byte) (s : State) : Host.Outcome State Fault Refusal :=
  .next (respond 0 { s with crcAcc := crcStep s.crcAcc imm8 })

end Sys2Proof.Machine
end

