-- ==== Sys2Proof/Machine/Operands.lean ====
section
/-! DEFINITION. The operand forms: none, a byte, a halfword (30_encoding.md R101) need nothing beyond the decoder; the
register number of `GET` is resolved here (10_state.md R21, R45; 43_host_access.md R205). -/

namespace Sys2Proof.Machine

/-- The register of a number; 8 to 255 are unassigned (10_state.md R21). -/
def regOf (imm8 : Byte) : Option RegName :=
  match imm8.toNat with
  | 0 => some .status
  | 1 => some .crcAcc
  | 2 => some .seq
  | 3 => some .txLen
  | 4 => some .rxCmd
  | 5 => some .rxLen
  | 6 => some .rxSeq
  | 7 => some .rxCtrl
  | _ => none

/-- Registers 4 to 7 are gated (10_state.md R45). -/
def gated : RegName → Bool
  | .status => false
  | .crcAcc => false
  | .seq => false
  | .txLen => false
  | .rxCmd => true
  | .rxLen => true
  | .rxSeq => true
  | .rxCtrl => true

/-- The value of a register, 16 bits as read, narrower ones zero-extended (10_state.md R44, R45). -/
def regValue (s : State) : RegName → Half
  | .status => statusWord s
  | .crcAcc => s.crcAcc
  | .seq => s.tx.seq
  | .txLen => s.tx.len
  | .rxCmd => s.rx.cmd.setWidth 16
  | .rxLen => s.rx.len
  | .rxSeq => s.rx.seq
  | .rxCtrl => s.rx.ctrl.setWidth 16

end Sys2Proof.Machine
end

