-- ==== Sys2Proof/Machine/HostAccess.lean ====
section
/-! DEFINITION. The host access commands (43_host_access.md R200, R203 to R207). -/

namespace Sys2Proof.Machine

/-- NOP (43_host_access.md R200). -/
def execNop (s : State) : Host.Outcome State Fault Refusal := .next (respond 0 s)

/-- RX_READ (43_host_access.md R203): the gate, the index test, the load. -/
def execRxRead (imm16 : Half) (s : State) : Host.Outcome State Fault Refusal :=
  whenGateOpen s
    (if s.rx.len.toNat ≤ imm16.toNat then .next (takeFault .noData s)
     else
      match readCell s.cfg.payloadMax.val s.rx.buf imm16.toNat with
      | .ok b => .next (respond (b.setWidth 16) s)
      | .error f => .fault f)

/-- RX_RELEASE (43_host_access.md R204). -/
def execRxRelease (s : State) : Host.Outcome State Fault Refusal :=
  if s.rx.state ≠ .done then .next (takeFault .badState s)
  else .next (respond 0 { s with rx := { s.rx with state := .idle, result := .none } })

/-- GET (43_host_access.md R205). -/
def execGet (imm8 : Byte) (s : State) : Host.Outcome State Fault Refusal :=
  match regOf imm8 with
  | none => .next (takeFault .illegalCommand s)
  | some r =>
    if gated r then whenGateOpen s (.next (respond (regValue s r) s)) else .next (respond (regValue s r) s)

/-- CLR_ERR (43_host_access.md R207). -/
def execClrErr (s : State) : Host.Outcome State Fault Refusal := .next (respond 0 (ackFaults s))

end Sys2Proof.Machine
end

