-- ==== Sys2Proof/Machine/Tx.lean ====
section
/-! DEFINITION. The serializer: its commands and the TxByte step (41_encode.md R152 to R159). -/

namespace Sys2Proof.Machine

/-! ## Staging commands -/

/-- TX_CLEAR (41_encode.md R152). -/
def execTxClear (s : State) : Host.Outcome State Fault Refusal :=
  whenTxIdle s (.next (respond 0 { s with tx := { s.tx with len := 0 } }))

/-- TX_PUSH (41_encode.md R153): BadState, then Overflow, then the store at `tx_len`. -/
def execTxPush (imm8 : Byte) (s : State) : Host.Outcome State Fault Refusal :=
  whenTxIdle s
    (if s.tx.len.toNat = s.cfg.payloadMax.val then .next (takeFault .overflow s)
     else
      match writeCell s.cfg.payloadMax.val s.tx.buf s.tx.len.toNat imm8 with
      | .ok buf => .next (respond 0 { s with tx := { s.tx with buf := buf, len := s.tx.len + 1 } })
      | .error f => .fault f)

/-- TX_SEND (41_encode.md R154). -/
def execTxSend (imm8 : Byte) (s : State) : Host.Outcome State Fault Refusal :=
  whenTxIdle s
    (.next (respond 0 { s with tx := { s.tx with cmd := imm8, idx := 0, crc := crcInit, state := .send } }))

/-- SET_SEQ (41_encode.md R156). -/
def execSetSeq (imm16 : Half) (s : State) : Host.Outcome State Fault Refusal :=
  whenTxIdle s (.next (respond 0 { s with tx := { s.tx with seq := imm16 } }))

/-! ## The sequencer -/

/-- The byte of index `tx_idx` (41_encode.md R158); beyond `9 + tx_len` there is none (log 13). -/
def txByteAt (size : Nat) (t : TxEngine) : Except Fault Byte :=
  if t.idx.toNat = 0 then .ok hdr0
  else if t.idx.toNat = 1 then .ok hdr1
  else if t.idx.toNat = 2 then .ok ctrlConst
  else if t.idx.toNat = 3 then .ok (lo8 t.len)
  else if t.idx.toNat = 4 then .ok (hi8 t.len)
  else if t.idx.toNat = 5 then .ok (lo8 t.seq)
  else if t.idx.toNat = 6 then .ok (hi8 t.seq)
  else if t.idx.toNat = 7 then .ok t.cmd
  else if t.idx.toNat < 8 + t.len.toNat then readCell size t.buf (t.idx.toNat - 8)
  else if t.idx.toNat = 8 + t.len.toNat then .ok (lo8 t.crc)
  else if t.idx.toNat = 9 + t.len.toNat then .ok (hi8 t.crc)
  else .error .txIndexOutOfRange

/-- `tx_last` (10_state.md R47). -/
def txLast (t : TxEngine) : Bool := decide (t.idx.toNat = 9 + t.len.toNat)

/-- What emitting the byte `b` writes in the TX engine (41_encode.md R159). -/
def txAdvance (b : Byte) (t : TxEngine) : TxEngine :=
  { t with
    crc := if t.idx.toNat < 8 + t.len.toNat then crcStep t.crc b else t.crc
    state := if txLast t then .idle else t.state
    idx := if txLast t then 0 else t.idx + 1 }

/-- The TxByte step, enabled in SEND (41_encode.md R159): the frame sink takes the byte. -/
def txByte (s : State) : Host.Outcome State Fault Refusal :=
  match txByteAt s.cfg.payloadMax.val s.tx with
  | .ok b =>
    .next { s with tx := txAdvance b s.tx, env := { s.env with txOut := s.env.txOut ++ [(b, txLast s.tx)] } }
  | .error f => .fault f

end Sys2Proof.Machine
end

