-- ==== Sys2Proof/Machine/Frame.lean ====
section
/-! DEFINITION. The Frame Codec's pure functions: `encode` (41_encode.md R150), `decode` and `validate`
(42_decode_validate.md R170, R171), the valid frame (30_encoding.md R99). -/

namespace Sys2Proof.Machine

/-- The bytes before the checksum, `pre` of 41_encode.md R150. -/
def encodePre (id : Byte) (seq : Half) (payload : List Byte) : List Byte :=
  [hdr0, hdr1, ctrlConst] ++ le16 (BitVec.ofNat 16 payload.length) ++ le16 seq ++ [id] ++ payload

/-- `encode(id, seq, P)` (41_encode.md R150), for `|P| <= 65535`. -/
def encodeFrame (id : Byte) (seq : Half) (payload : List Byte) : List Byte :=
  encodePre id seq payload ++ le16 (checksum (encodePre id seq payload))

/-- Byte `i` of a sequence that is known to be longer. -/
def byteAt (s : List Byte) (i : Nat) : Byte := s.getD i 0

/-- The declared length, `{s[4], s[3]}` (42_decode_validate.md R170). -/
def declaredLen (s : List Byte) : Half := unle16 (byteAt s 3) (byteAt s 4)

/-- The trailing field, `{s[n-1], s[n-2]}` (R170). -/
def trailingField (s : List Byte) : Half := unle16 (byteAt s (s.length - 2)) (byteAt s (s.length - 1))

/-- The answers of `decode` (42_decode_validate.md R170). -/
inductive DecodeResult
  | malformed
  | checksumMismatch
  | ok (cmd : Byte) (payload : List Byte) (ctrl : Byte) (seq : Half) (len : Half)
  deriving DecidableEq, Repr

/-- `decode(s)`: the tests of R170 in their order. -/
def decodeFrame (s : List Byte) : DecodeResult :=
  if s.length < frameMin then .malformed
  else if byteAt s 0 ≠ hdr0 ∨ byteAt s 1 ≠ hdr1 then .malformed
  else if prefixLen + (declaredLen s).toNat + fcsLen ≠ s.length then .malformed
  else if checksum (s.take (s.length - 2)) ≠ trailingField s then .checksumMismatch
  else .ok (byteAt s 7) ((s.drop 8).take (declaredLen s).toNat) (byteAt s 2) (unle16 (byteAt s 5) (byteAt s 6))
    (declaredLen s)

/-- A valid frame (30_encoding.md R99). -/
def validFrame (s : List Byte) : Bool :=
  decide (frameMin ≤ s.length) && byteAt s 0 == hdr0 && byteAt s 1 == hdr1 &&
    decide (8 + (declaredLen s).toNat + 2 = s.length) &&
    trailingField s == checksum (s.take (s.length - 2))

/-- The bytes of one datagram, `last` on the final one only (00_scope.md R7). -/
def markLast : List Byte → List StreamByte
  | [] => []
  | [b] => [(b, true)]
  | b :: c :: s => (b, false) :: markLast (c :: s)

end Sys2Proof.Machine
end

