-- ==== Sys2Proof/Machine/Rx.lean ====
section
/-! DEFINITION. The deserializer and validator: the RxByte step (42_decode_validate.md R172 to R181). -/

namespace Sys2Proof.Machine

/-- The initialisation at the first byte of a datagram; `rx_buf` is not erased (42_decode_validate.md R173). -/
def rxInit (r : RxEngine) : RxEngine :=
  { r with
    state := .recv, cnt := 0, hdrBad := false, crc := crcInit, fcs := 0, ctrl := 0, len := 0, seq := 0, cmd := 0 }

/-- R173 applies when the step begins in IDLE. -/
def rxBegin (r : RxEngine) : RxEngine := if r.state = .idle then rxInit r else r

/-- The byte `b` at index `i = rx_cnt`, in a block with `size` cells: header (R174), control (R175), fields (R176),
checksum (R177), payload (R178), trailing field (R179), count (R180). Every test reads the length as it stands at the
start of the step. -/
def rxTake (size : Nat) (b : Byte) (r : RxEngine) : RxEngine :=
  { r with
    hdrBad := r.hdrBad || decide (r.cnt.toNat = 0 ∧ b ≠ hdr0) || decide (r.cnt.toNat = 1 ∧ b ≠ hdr1)
    ctrl := if r.cnt.toNat = 2 then b else r.ctrl
    len := if r.cnt.toNat = 3 then setLo8 r.len b else if r.cnt.toNat = 4 then setHi8 r.len b else r.len
    seq := if r.cnt.toNat = 5 then setLo8 r.seq b else if r.cnt.toNat = 6 then setHi8 r.seq b else r.seq
    cmd := if r.cnt.toNat = 7 then b else r.cmd
    crc := if r.cnt.toNat < 8 ∨ r.cnt.toNat < 8 + r.len.toNat then crcStep r.crc b else r.crc
    buf :=
      if 8 ≤ r.cnt.toNat ∧ r.cnt.toNat < 8 + r.len.toNat ∧ r.cnt.toNat - 8 < size then
        Memory.write r.buf (r.cnt.toNat - 8) b
      else r.buf
    fcs :=
      if 8 ≤ r.cnt.toNat ∧ r.cnt.toNat = 8 + r.len.toNat then setLo8 r.fcs b
      else if 8 ≤ r.cnt.toNat ∧ r.cnt.toNat = 9 + r.len.toNat then setHi8 r.fcs b
      else r.fcs
    cnt := sat17 (r.cnt.toNat + 1) }

/-- The verdict on a datagram that has ended: the tests of R180 in their order, R181 among them (log 14). -/
def rxVerdict (size : Nat) (r : RxEngine) : RxResult :=
  if r.cnt.toNat < frameMin ∨ r.hdrBad = true then .malformed
  else if r.cnt.toNat ≠ 10 + r.len.toNat then .malformed
  else if size < r.len.toNat then .malformed
  else if r.crc ≠ r.fcs then .checksumMismatch
  else .ok

/-- Finalisation on the last byte (R180). -/
def rxFinish (size : Nat) (last : Bool) (r : RxEngine) : RxEngine :=
  if last then { r with result := rxVerdict size r, state := .done } else r

/-- One accepted byte. -/
def rxStep (size : Nat) (b : Byte) (last : Bool) (r : RxEngine) : RxEngine :=
  rxFinish size last (rxTake size b (rxBegin r))

/-- `rx_ready` (10_state.md R47): the RxByte step is enabled unless a datagram is held (R172). -/
def rxReady (r : RxEngine) : Bool := decide (r.state ≠ .done)

/-- The RxByte step (R172 to R180). It cannot fault and writes RX registers only. -/
def rxByte (b : Byte) (last : Bool) (s : State) : State :=
  { s with rx := rxStep s.cfg.payloadMax.val b last s.rx }

/-- Put bytes back at the head of what the datagram source holds. -/
def holdBytes (bytes : List StreamByte) (s : State) : State :=
  { s with env := { s.env with rxIn := bytes ++ s.env.rxIn } }

/-- Consecutive RxByte steps over `bytes` (42_decode_validate.md R184); once the stream stalls, the byte and those
behind it stay with the datagram source (R172; log 7). -/
def presentBytes : List StreamByte → State → State
  | [], s => s
  | (b, last) :: bytes, s =>
    if rxReady s.rx then presentBytes bytes (rxByte b last s) else holdBytes ((b, last) :: bytes) s

end Sys2Proof.Machine
end

