-- ==== Sys2Proof/Machine/Wire.lean ====
section
/-! DEFINITION. The wire rows of the opcode table, FRAME and AUTO_CENTER: such a frame presented at the RX stream as one
datagram and judged there (30_encoding.md R90, R108; 42_decode_validate.md R170, R184; log 6). -/

namespace Sys2Proof.Machine

/-- FRAME: the frame's bytes, `last` on the final one. -/
def execFrame (f : WireFrame) (s : State) : Host.Outcome State Fault Refusal :=
  .next (presentBytes (markLast (frameBytes f)) s)

/-- AUTO_CENTER: the eleven bytes of R108. -/
def execAutoCenter (s : State) : Host.Outcome State Fault Refusal :=
  .next (presentBytes (markLast autoCenterBytes) s)

end Sys2Proof.Machine
end

