-- ==== Sys2Proof/Machine/Dispatch.lean ====
section
/-! DEFINITION. One arm for each row of the opcode table. -/

namespace Sys2Proof.Machine

def exec (i : Instr) (s : State) : Host.Outcome State Fault Refusal :=
  match i with
  | .nop => Sys2Proof.Machine.execNop s
  | .crcClear => Sys2Proof.Machine.execCrcClear s
  | .crcByte imm8 => Sys2Proof.Machine.execCrcByte imm8 s
  | .txClear => Sys2Proof.Machine.execTxClear s
  | .txPush imm8 => Sys2Proof.Machine.execTxPush imm8 s
  | .txSend imm8 => Sys2Proof.Machine.execTxSend imm8 s
  | .setSeq imm16 => Sys2Proof.Machine.execSetSeq imm16 s
  | .rxRead imm16 => Sys2Proof.Machine.execRxRead imm16 s
  | .rxRelease => Sys2Proof.Machine.execRxRelease s
  | .get imm8 => Sys2Proof.Machine.execGet imm8 s
  | .clrErr => Sys2Proof.Machine.execClrErr s
  | .frame f => Sys2Proof.Machine.execFrame f s
  | .autoCenter => Sys2Proof.Machine.execAutoCenter s

end Sys2Proof.Machine
end

