-- ==== Sys2Proof/Machine/Fetch.lean ====
section
/-! DEFINITION. What each agent's turn does (00_scope.md R7; 43_host_access.md R201; 42_decode_validate.md R172;
41_encode.md R159; 70_reset_and_hazards.md R280). A turn of an agent whose step is not enabled passes (log 2). -/

namespace Sys2Proof.Machine

/-- The word a HostCmd step executes: an illegal one faults IllegalCommand (30_encoding.md R103), any other runs. -/
def hostWord (w : CmdWord) (s : State) : Host.Outcome State Fault Refusal :=
  match decode (.command w) with
  | .ok i => exec i s
  | .error _ => .next (takeFault .illegalCommand s)

/-- HostCmd: always enabled when the host presents a word (00_scope.md R7). -/
def hostTurn (s : State) : Host.Outcome State Fault Refusal :=
  match s.env.hostIn with
  | [] => .next s
  | w :: ws => hostWord w { s with env := { s.env with hostIn := ws } }

/-- RxByte: enabled unless DONE (42_decode_validate.md R172). -/
def sourceTurn (s : State) : Host.Outcome State Fault Refusal :=
  match s.env.rxIn with
  | [] => .next s
  | (b, last) :: bytes =>
    if rxReady s.rx then .next (rxByte b last { s with env := { s.env with rxIn := bytes } }) else .next s

/-- TxByte: enabled in SEND (41_encode.md R159). -/
def sinkTurn (s : State) : Host.Outcome State Fault Refusal :=
  if s.tx.state = .send then txByte s else .next s

/-- The bytes up to and with the first `last`, and those behind. -/
def splitDatagram : List StreamByte → List StreamByte × List StreamByte
  | [] => ([], [])
  | (b, last) :: bytes =>
    if last then ([(b, last)], bytes)
    else ((b, last) :: (splitDatagram bytes).1, (splitDatagram bytes).2)

/-- A datagram that is a frame runs the frame's row; any other, and one not ended yet, is presented byte by byte just
the same (log 6). -/
def wireDatagram (d : List StreamByte) (s : State) : Host.Outcome State Fault Refusal :=
  match decode (.wire (d.map Prod.fst)) with
  | .ok i => if d = markLast (d.map Prod.fst) then exec i s else .next (presentBytes d s)
  | .error _ => .next (presentBytes d s)

/-- The whole next datagram of the datagram source, by consecutive RxByte steps (42_decode_validate.md R184; log 6). -/
def datagramTurn (s : State) : Host.Outcome State Fault Refusal :=
  wireDatagram (splitDatagram s.env.rxIn).1
    { s with env := { s.env with rxIn := (splitDatagram s.env.rxIn).2 } }

/-- One turn. While `rst` is asserted no step is enabled (70_reset_and_hazards.md R280). -/
def takeTurn (t : Turn) (s : State) : Host.Outcome State Fault Refusal :=
  match t with
  | .rstAssert => .next (assertReset s)
  | .rstRelease => .next (releaseReset s)
  | .host => if s.env.rst then .next s else hostTurn s
  | .source => if s.env.rst then .next s else sourceTurn s
  | .datagram => if s.env.rst then .next s else datagramTurn s
  | .sink => if s.env.rst then .next s else sinkTurn s

/-- The next turn is taken off the list, then taken; with none left the run is over (log 3). -/
def nextTurn (s : State) : Host.Outcome State Fault Refusal :=
  match s.env.turns with
  | [] => .fault .noTurn
  | t :: ts => takeTurn t { s with env := { s.env with turns := ts } }

/-- Give the host the word as its next and the next turn (log 18). -/
def placeCommand (w : CmdWord) (s : State) : State :=
  { s with env := { s.env with rst := false, turns := .host :: s.env.turns, hostIn := w :: s.env.hostIn } }

/-- Give the datagram source the bytes as its next datagram and the next turn (log 18). -/
def placeDatagram (bytes : List Byte) (s : State) : State :=
  { s with
    env := { s.env with
      rst := false, turns := .datagram :: s.env.turns, rxIn := markLast bytes ++ s.env.rxIn } }

/-- Place a row of the opcode table where it is presented (log 17, 18). -/
def placeEncoded (e : Encoded) (s : State) : State :=
  match e with
  | .command w => placeCommand w s
  | .wire bytes => placeDatagram bytes s

end Sys2Proof.Machine
end

