-- ==== Sys2Proof/Machine/Step.lean ====
section
/-! DEFINITION. One step of the machine, and how a word comes to be the next one. -/

namespace Sys2Proof.Machine

/-- One step: the next agent's turn (00_scope.md R7). -/
def step (s : State) : Host.Outcome State Fault Refusal := nextTurn s

/-- `s` with a row of the opcode table presented next, so that the very next step runs it (log 18). -/
def State.withFetchWord (s : State) (nbits w : Nat) : State := placeEncoded (tableWord nbits w) s

end Sys2Proof.Machine
end

