-- ==== Sys2Proof/Machine/Ports.lean ====
section
/-! DEFINITION. The output ports of the block, functions of the state (10_state.md R47, 60_exceptions.md R256). The
response port is `env.respOut`; `cmd_valid`, `rx_valid` and `tx_ready` are the turns of the three agents (log 1). -/

namespace Sys2Proof.Machine

/-- `cmd_ready`: constant 1; only an asserted `rst` keeps a HostCmd step from happening (70_reset_and_hazards.md R280). -/
def cmdReadyPort (_ : State) : Bool := true
/-- `rx_ready`. -/
def rxReadyPort (s : State) : Bool := rxReady s.rx
/-- `tx_valid`. -/
def txValidPort (s : State) : Bool := decide (s.tx.state = .send)
/-- `tx_data`: the byte 41_encode.md R158 gives for the current `tx_idx`, with `tx_valid` 1 or 0 (10_state.md R47;
DEDUCED for 0, log 20); none where R158 gives no byte (log 9, log 13). -/
def txDataPort (s : State) : Option Byte := (txByteAt s.cfg.payloadMax.val s.tx).toOption
/-- `tx_last`. -/
def txLastPort (s : State) : Bool := txLast s.tx
/-- `rx_done`. -/
def rxDonePort (s : State) : Bool := decide (s.rx.state = .done)
/-- `rx_ok`. -/
def rxOkPort (s : State) : Bool := decide (s.rx.result = .ok)
/-- `tx_busy`. -/
def txBusyPort (s : State) : Bool := decide (s.tx.state = .send)
/-- `err_any`. -/
def errAnyPort (s : State) : Bool := decide (s.err ≠ 0)

end Sys2Proof.Machine
end

