-- ==== Sys2Proof/Machine/Pseudo.lean ====
section
/-! DEFINITION. The pseudo-instructions of 30_encoding.md R107, as the command lists they expand to, and what a polling
host reads off STATUS (10_state.md R44). The block knows none of them: they are fixed ways to use its commands. -/

namespace Sys2Proof.Machine

/-- What a host does in an expansion: issue a command, or poll `GET STATUS` until a condition holds (R107). -/
inductive HostAct
  | cmd (i : Instr)
  | waitTxIdle
  | waitRxDone
  deriving DecidableEq, Repr

/-- The pseudo-instructions of R107. -/
inductive Pseudo
  | crc16 (bytes : List Byte)
  | encode (id : Byte) (payload : List Byte)
  | encodeSeq (seq : Half) (id : Byte) (payload : List Byte)
  | resend (id : Byte)
  | decode
  | validate
  deriving DecidableEq, Repr

/-- `STATUS.TXB`. -/
def statusTxb (v : Half) : BitVec 1 := v.extractLsb' 4 1
/-- `STATUS.RXS`. -/
def statusRxs (v : Half) : BitVec 2 := v.extractLsb' 0 2
/-- `STATUS.RXR`. -/
def statusRxr (v : Half) : BitVec 2 := v.extractLsb' 2 2
/-- `STATUS[11:8]`, the fault mask. -/
def statusErr (v : Half) : BitVec 4 := v.extractLsb' 8 4

/-- A wait is over for a `GET STATUS` that answers `v`. -/
def HostAct.waitOver (v : Half) : HostAct → Bool
  | .cmd _ => true
  | .waitTxIdle => statusTxb v == 0
  | .waitRxDone => statusRxs v == rxStateCode .done

/-- The commands of CRC16. -/
def crc16Commands (bytes : List Byte) : List Instr :=
  .crcClear :: bytes.map Instr.crcByte ++ [.get (regNumber .crcAcc)]

/-- The commands of ENCODE after its wait. -/
def encodeCommands (id : Byte) (payload : List Byte) : List Instr :=
  .txClear :: payload.map Instr.txPush ++ [.txSend id]

/-- The reads of DECODE, given what `GET RX_LEN` answers. -/
def decodeReads (len : Half) : List Instr :=
  [.get (regNumber .rxCmd), .get (regNumber .rxLen)] ++
    (List.range len.toNat).map fun k => .rxRead (BitVec.ofNat 16 k)

/-- The expansion of R107, given the verdict `rxr` that DECODE reads off STATUS and the length `len` that it reads off
RX_LEN when the verdict is Ok. -/
def Pseudo.expand (rxr : BitVec 2) (len : Half) : Pseudo → List HostAct
  | .crc16 bytes => (crc16Commands bytes).map HostAct.cmd
  | .encode id payload => .waitTxIdle :: (encodeCommands id payload).map HostAct.cmd
  | .encodeSeq seq id payload => .waitTxIdle :: (.setSeq seq :: encodeCommands id payload).map HostAct.cmd
  | .resend id => [.waitTxIdle, .cmd (.txSend id)]
  | .decode =>
    .waitRxDone :: .cmd (.get (regNumber .status)) ::
      (if rxr = rxResultCode .ok then (decodeReads len).map HostAct.cmd else []) ++ [.cmd .rxRelease]
  | .validate => [.waitRxDone, .cmd (.get (regNumber .status)), .cmd .rxRelease]

/-- The word of a host command; a wire row has none. -/
def commandWord (i : Instr) : Option CmdWord :=
  match Sys2Proof.encode i with
  | .command w => some w
  | .wire _ => none

/-- The words of a list of host commands. -/
def commandWords (is : List Instr) : List CmdWord := is.filterMap commandWord

end Sys2Proof.Machine
end

