-- ==== Sys2Proof/Safety.lean ====
section
/-! DEFINITION. The terms claims use: the invariants of 10_state.md R49, what the engines' registers stand for, the
quiescent states of 70_reset_and_hazards.md R286. -/

namespace Sys2Proof.Machine

/-! ## Invariants (10_state.md R49) -/

/-- R49 (a), (b); the cells `tx_buf[0 .. tx_len)` hold a value (41_encode.md R160); the buffer keeps its form. -/
def TxInv (size : Nat) (t : TxEngine) : Prop :=
  t.len.toNat ≤ size ∧
  (t.state = .idle → t.idx = 0) ∧
  (t.state = .send → t.idx.toNat ≤ 9 + t.len.toNat) ∧
  (∀ k < t.len.toNat, (Memory.read t.buf k).isSome = true) ∧
  Memory.wf t.buf ∧ Memory.within size t.buf

/-- R49 (d), (e); every payload byte taken so far is in its cell (42_decode_validate.md R178, R186); an Ok datagram has
its whole payload kept (R181); the buffer keeps its form. -/
def RxInv (size : Nat) (r : RxEngine) : Prop :=
  (r.result ≠ .none ↔ r.state = .done) ∧
  (r.state ≠ .idle → ∀ k < r.len.toNat, 8 + k < r.cnt.toNat → k < size → (Memory.read r.buf k).isSome = true) ∧
  (r.result = .ok → r.cnt.toNat = 10 + r.len.toNat ∧ r.len.toNat ≤ size) ∧
  Memory.wf r.buf ∧ Memory.within size r.buf

/-- The invariant of the block. -/
def BlockInv (s : State) : Prop := TxInv s.cfg.payloadMax.val s.tx ∧ RxInv s.cfg.payloadMax.val s.rx

/-! ## What the engines' registers stand for -/

/-- In SEND the frame sink has taken the first `tx_idx` bytes of the frame, and `tx_crc` is the checksum of those before
the trailing field (R49 (f)). -/
def TxEmitted (s : State) : Prop :=
  s.tx.state = .send → ∃ payload before,
    Memory.firstN s.tx.buf s.tx.len.toNat = some payload ∧
    s.tx.crc = checksum ((encodePre s.tx.cmd s.tx.seq payload).take s.tx.idx.toNat) ∧
    s.env.txOut = before ++ (markLast (encodeFrame s.tx.cmd s.tx.seq payload)).take s.tx.idx.toNat

/-- The RX registers after the bytes `d` of one datagram (42_decode_validate.md R173 to R180; R49 (g)). -/
def RxHolds (size : Nat) (d : List Byte) (r : RxEngine) : Prop :=
  r.cnt = sat17 d.length ∧
  (r.hdrBad = true ↔ byteAt d 0 ≠ hdr0 ∨ (2 ≤ d.length ∧ byteAt d 1 ≠ hdr1)) ∧
  r.ctrl = byteAt d 2 ∧
  r.len = declaredLen d ∧
  r.seq = unle16 (byteAt d 5) (byteAt d 6) ∧
  r.cmd = byteAt d 7 ∧
  r.crc = checksum (d.take (8 + r.len.toNat)) ∧
  r.fcs = unle16 (byteAt d (8 + r.len.toNat)) (byteAt d (9 + r.len.toNat)) ∧
  (∀ k < r.len.toNat, k < size → 8 + k < d.length → Memory.read r.buf k = some (byteAt d (8 + k)))

/-- The verdict the block gives on a whole datagram: that of `decode` (42_decode_validate.md R170), but Malformed for a
payload longer than the buffer, decided before the checksum is looked at (R180, R181; log 14). -/
def blockVerdict (size : Nat) (d : List Byte) : RxResult :=
  match decodeFrame d with
  | .malformed => .malformed
  | .checksumMismatch => if size < (declaredLen d).toNat then .malformed else .checksumMismatch
  | .ok _ _ _ _ len => if size < len.toNat then .malformed else .ok

/-- Inside a datagram, or holding one: the registers are those after some bytes, and a held verdict is that of R180. -/
def RxRepresents (s : State) : Prop :=
  s.rx.state ≠ .idle → ∃ d, d ≠ [] ∧ RxHolds s.cfg.payloadMax.val d s.rx ∧
    (s.rx.state = .done → s.rx.result = blockVerdict s.cfg.payloadMax.val d)

/-- The RX registers after accepted bytes, one RxByte step each (42_decode_validate.md R173 to R180). -/
def rxSteps (size : Nat) (bytes : List StreamByte) (r : RxEngine) : RxEngine :=
  bytes.foldl (fun r c => rxStep size c.1 c.2 r) r

/-- The bytes a turn takes from the datagram source: the next one by an RxByte turn, those up to the next `last` by a
datagram's turn, and none while `rst` is asserted, in DONE, or by any other turn (00_scope.md R7, 42_decode_validate.md
R172; log 6). -/
def takenBytes (u : Turn) (s : State) : List StreamByte :=
  if s.env.rst = true ∨ s.rx.state = .done then []
  else if u = .source then s.env.rxIn.take 1
  else if u = .datagram then (splitDatagram s.env.rxIn).1
  else []

/-! ## Ways to look at a run -/

/-- `n` steps of the machine behind the host's interface, stopping at the first that has no next state. -/
def runSteps (n : Nat) (s : State) : Host.Outcome State Fault Refusal := Host.Core.run Sys2Proof.core n s

/-- No frame half sent, no datagram half received (70_reset_and_hazards.md R286). -/
def quiescent (s : State) : Bool := decide (s.tx.state = .idle) && decide (s.rx.state ≠ .recv)

/-- Quiescent with no datagram held (R286). -/
def idleBlock (s : State) : Bool := quiescent s && decide (s.rx.state = .idle)

/-- Every datagram the source holds is ended, a premise about the environment (70_reset_and_hazards.md R285 (a)). -/
def sourceEnds (s : State) : Bool := (s.env.rxIn.getLast?).all Prod.snd

/-- The state once a turn has been taken off the list. -/
def afterTurn (ts : List Turn) (s : State) : State := { s with env := { s.env with turns := ts } }

/-- A HostCmd step of this word faults IllegalCommand and does nothing else (30_encoding.md R103). -/
def IllegalWord (w : CmdWord) : Prop :=
  ∀ s, step (placeCommand w s) = .next (takeFault .illegalCommand (releaseReset s))

/-- The first test of 43_host_access.md R201 that fires for a command, as 60_exceptions.md R253 lists them. A legal
`GET` never fails the first one; a wire row is no command. -/
def faultOf (i : Instr) (s : State) : Option Cause :=
  match i with
  | .nop => none
  | .crcClear => none
  | .crcByte _ => none
  | .txClear => if s.tx.state = .send then some .badState else none
  | .txPush _ =>
    if s.tx.state = .send then some .badState
    else if s.tx.len.toNat = s.cfg.payloadMax.val then some .overflow
    else none
  | .txSend _ => if s.tx.state = .send then some .badState else none
  | .setSeq _ => if s.tx.state = .send then some .badState else none
  | .rxRead imm16 =>
    if s.rx.state ≠ .done ∨ s.rx.result ≠ .ok then some .noData
    else if s.rx.len.toNat ≤ imm16.toNat then some .noData
    else none
  | .rxRelease => if s.rx.state ≠ .done then some .badState else none
  | .get imm8 =>
    if 8 ≤ imm8.toNat then some .illegalCommand
    else if 4 ≤ imm8.toNat ∧ (s.rx.state ≠ .done ∨ s.rx.result ≠ .ok) then some .noData
    else none
  | .clrErr => none
  | .frame _ => none
  | .autoCenter => none

/-- Everything the RX engine holds replaced, but for the two registers every host may see (10_state.md R46). -/
def withRxContent (r' : RxEngine) (s : State) : State :=
  { s with rx := { r' with state := s.rx.state, result := s.rx.result } }

/-- One bit of one byte of a sequence inverted. -/
def flipBit (s : List Byte) (i : Nat) (j : Fin 8) : List Byte :=
  s.set i (byteAt s i ^^^ (1#8 <<< j.val))

/-- Bytewise exclusive OR of two sequences of one length (40_crc.md R136 (b)). -/
def xorBytes (s t : List Byte) : List Byte := List.zipWith (· ^^^ ·) s t

end Sys2Proof.Machine
end

