-- ==== Sys2Proof/Certificates/Slice0/Obligations.lean ====
section
/-! DEFINITION. The statements about A8FC, from the numbered rules of spec/. -/

open Sys2Proof Sys2Proof.Machine

/-! ## Encodings -/

/-- Words written out from the spec's encodings decode to the instructions they stand for, and illegal ones to none
(30_encoding.md R90, R102, R103, R108; 95_test_vectors.md 2.5). The printed frame reads as `autoCenter` (log 16). The
last frame is no row of the vectors: a frame of sequence 1234 whose checksum is wrong, which decoding does not ask. -/
def Obligations.SpecWordsDecode : Prop :=
  decode (.command 0b000000000000000000000000#24) = .ok .nop ∧
  decode (.command 0b000000100000000001010101#24) = .ok (.crcByte 0x55) ∧
  decode (.command 0b000100110001001000110100#24) = .ok (.setSeq 0x1234) ∧
  decode (.command 0b001000000000000000000001#24) = .ok (.rxRead 1) ∧
  decode (.command 0b001100000000000000000111#24) = .ok (.get 7) ∧
  decode (.command 0x300008#24) = .error (.registerUnassigned 8) ∧
  decode (.command 0x300100#24) = .error .highByteNotZero ∧
  decode (.command 0x310001#24) = .error .operandNotZero ∧
  decode (.command 0x400000#24) = .error (.unknownOpcode 0x40) ∧
  decode (.wire [0x55, 0x66, 0x01, 0x01, 0x00, 0x00, 0x00, 0x08, 0x01, 0xD1, 0x12]) = .ok .autoCenter ∧
  decode (.wire [0x55, 0x66, 0x01, 0x00, 0x00, 0x34, 0x12, 0x01, 0x64, 0xC4]) =
    .ok (.frame { ctrl := 0x01, len := 0, seq := 0x1234, cmdId := 0x01, payload := [], crc16 := 0xC464 })

/-- Every well-formed instruction decodes from its encoding, with every operand (30_encoding.md R90, R101, R102). -/
def Obligations.DecodeOfEncode : Prop :=
  ∀ i : Instr, i.wellFormed = true → decode (encode i) = .ok i

/-- Whatever decodes is the encoding of what it decodes to, and that is well formed: each word and each byte sequence
has one meaning at most (30_encoding.md R102, R103, R105). -/
def Obligations.EncodeOfDecode : Prop :=
  ∀ (e : Encoded) (i : Instr), decode e = .ok i → i.wellFormed = true ∧ encode i = e

/-- 30_encoding.md R103: which words are illegal, and that an illegal word faults IllegalCommand and changes nothing
else. Every other word decodes. -/
def Obligations.IllegalWordsFault : Prop :=
  ∀ w : CmdWord,
    let op := w.extractLsb' 16 8
    let illegal :=
      op ∉ [0x00#8, 0x01#8, 0x02#8, 0x10#8, 0x11#8, 0x12#8, 0x13#8, 0x20#8, 0x21#8, 0x30#8, 0x31#8] ∨
      (op ∈ [0x00#8, 0x01#8, 0x10#8, 0x21#8, 0x31#8] ∧ w.extractLsb' 0 16 ≠ 0) ∨
      (op ∈ [0x02#8, 0x11#8, 0x12#8, 0x30#8] ∧ w.extractLsb' 8 8 ≠ 0) ∨
      (op = 0x30#8 ∧ 8 ≤ (w.extractLsb' 0 8).toNat)
    (illegal → IllegalWord w ∧ ∀ i, decode (.command w) ≠ .ok i) ∧
    (¬ illegal → ∃ i, decode (.command w) = .ok i ∧ i.isCommand = true)

/-- 30_encoding.md R102: the match and mask patterns of the opcode map are pairwise disjoint, and a word that decodes is
covered by the row of its operation. -/
def Obligations.OpcodePatternsDisjoint : Prop :=
  ∀ w : CmdWord,
    (∀ r ∈ hostRows, ∀ q ∈ hostRows, r.covers w = true → q.covers w = true → r = q) ∧
    (∀ i, decode (.command w) = .ok i → ∃ r ∈ hostRows, r.covers w = true ∧ r.op = w.extractLsb' 16 8)

/-! ## The checksum -/

/-- 40_crc.md R131: the table of the construction is the table as listed, 256 pairwise different entries. -/
def Obligations.CrcTableAsListed : Prop :=
  crcListing.length = 256 ∧ crcListing.Nodup ∧
    ∀ i : Byte, crcListing[i.toNat]? = some (crcTable i)

/-- 40_crc.md R134: the table form and the bit-serial form agree on every accumulator and byte. -/
def Obligations.CrcStepIsBitSerial : Prop :=
  ∀ (acc : Half) (b : Byte), crcStep acc b = crcStepSerial acc b

/-- 40_crc.md R136 (b), (c): linearity, and leading zeros are invisible. -/
def Obligations.ChecksumIsLinear : Prop :=
  (∀ s t : List Byte, s.length = t.length → checksum (xorBytes s t) = checksum s ^^^ checksum t) ∧
  (∀ (k : Nat) (s : List Byte), checksum (List.replicate k 0x00#8 ++ s) = checksum s)

/-- 40_crc.md R136 (d), (g), R139: for a fixed byte a bijection of the accumulator, for a fixed accumulator injective in
the byte; a checksum appended high byte first sums to zero, while in wire order there is no zero residue, as the frame
of 30_encoding.md R108 shows. -/
def Obligations.CrcStepBijectiveAndResidue : Prop :=
  (∀ b : Byte, Function.Bijective fun acc : Half => crcStep acc b) ∧
  (∀ acc : Half, Function.Injective fun b : Byte => crcStep acc b) ∧
  (∀ s : List Byte, checksum (s ++ [hi8 (checksum s), lo8 (checksum s)]) = 0x0000) ∧
  checksum autoCenterBytes = 0xAA28

/-- 40_crc.md R136 (e): a change of exactly one bit changes the checksum, at any place of a sequence of any length. -/
def Obligations.ChecksumDetectsOneBit : Prop :=
  ∀ (s : List Byte) (i : Nat) (j : Fin 8), i < s.length → checksum (flipBit s i j) ≠ checksum s

/-- 40_crc.md R136 (f): swapping two adjacent bytes that differ changes the checksum; so a sequence with two different
adjacent bytes has a permutation with another checksum (R138, 90_conflicts.md C6). -/
def Obligations.ChecksumDetectsSwap : Prop :=
  ∀ (u v : List Byte) (x y : Byte), x ≠ y →
    checksum (u ++ [x, y] ++ v) ≠ checksum (u ++ [y, x] ++ v)

/-- 30_encoding.md R108, 40_crc.md R132: `encode` reproduces the printed frame, and the check value over "123456789". -/
def Obligations.SourceVector : Prop :=
  encodeFrame 0x08 0x0000 [0x01] =
    [0x55, 0x66, 0x01, 0x01, 0x00, 0x00, 0x00, 0x08, 0x01, 0xD1, 0x12] ∧
  frameBytes autoCenterFrame = encodeFrame 0x08 0x0000 [0x01] ∧
  checksum [0x31, 0x32, 0x33, 0x34, 0x35, 0x36, 0x37, 0x38, 0x39] = 0x31C3

/-! ## Responses and faults -/

/-- 60_exceptions.md R252, R253, 30_encoding.md R104: what a fault of each cause leaves, nothing but its bit of `err`
and the response; and what a success answers. -/
def Obligations.FaultMechanism : Prop :=
  ∀ s : State,
    takeFault .illegalCommand s =
      { s with err := s.err ||| 0b0001#4, env := { s.env with respOut := s.env.respOut ++ [0x00001#17] } } ∧
    takeFault .badState s =
      { s with err := s.err ||| 0b0010#4, env := { s.env with respOut := s.env.respOut ++ [0x00002#17] } } ∧
    takeFault .overflow s =
      { s with err := s.err ||| 0b0100#4, env := { s.env with respOut := s.env.respOut ++ [0x00003#17] } } ∧
    takeFault .noData s =
      { s with err := s.err ||| 0b1000#4, env := { s.env with respOut := s.env.respOut ++ [0x00004#17] } } ∧
    ∀ v : Half, respond v s = { s with env := { s.env with respOut := s.env.respOut ++ [0b1#1 ++ v] } }

/-- 43_host_access.md R201, 60_exceptions.md R255: a command reports the first fault of R201's order and then changes
nothing else; with no test firing it completes with one ok response and leaves `err` alone but for CLR_ERR. -/
def Obligations.FaultPriority : Prop :=
  ∀ (s : State) (i : Instr), BlockInv s → i.isCommand = true →
    match faultOf i s with
    | some c => exec i s = .next (takeFault c s)
    | none => ∃ (v : Half) (t : State), exec i s = .next t ∧ t.env = { s.env with respOut := s.env.respOut ++ [0b1#1 ++ v] } ∧
        t.err = if i = .clrErr then 0 else s.err

/-- 30_encoding.md R104: `n` HostCmd steps give exactly `n` responses and consume the words, whatever they are. -/
def Obligations.EveryWordAnswered : Prop :=
  ∀ (words : List CmdWord) (s : State) (ts : List Turn) (ws : List CmdWord),
    BlockInv s → s.env.rst = false →
    s.env.turns = List.replicate words.length .host ++ ts → s.env.hostIn = words ++ ws →
    ∃ t responses, runSteps words.length s = .next t ∧ responses.length = words.length ∧
      t.env = { s.env with turns := ts, hostIn := ws, respOut := s.env.respOut ++ responses }

/-! ## The commands -/

/-- 43_host_access.md R200. -/
def Obligations.NopOnlyResponds : Prop :=
  ∀ s : State,
    encode .nop = .command 0x000000#24 ∧
    exec .nop s = .next (respond 0 s) ∧
    ∀ arg : Half, arg ≠ 0 → IllegalWord (0x00#8 ++ arg)

/-- 40_crc.md R141. -/
def Obligations.CrcClearClears : Prop :=
  ∀ s : State,
    encode .crcClear = .command 0x010000#24 ∧
    exec .crcClear s = .next (respond 0 { s with crcAcc := 0x0000 }) ∧
    ∀ arg : Half, arg ≠ 0 → IllegalWord (0x01#8 ++ arg)

/-- 40_crc.md R142. -/
def Obligations.CrcByteFolds : Prop :=
  ∀ (s : State) (imm8 : Byte),
    encode (.crcByte imm8) = .command (0x0200#16 ++ imm8) ∧
    exec (.crcByte imm8) s = .next (respond 0 { s with crcAcc := crcStep s.crcAcc imm8 }) ∧
    ∀ high : Byte, high ≠ 0 → IllegalWord (0x02#8 ++ (high ++ imm8))

/-- 41_encode.md R152: BadState in SEND, otherwise `tx_len` is 0 and every cell stays. -/
def Obligations.TxClearEmptiesStaging : Prop :=
  ∀ s : State,
    encode .txClear = .command 0x100000#24 ∧
    (s.tx.state = .send → exec .txClear s = .next (takeFault .badState s)) ∧
    (s.tx.state = .idle → exec .txClear s = .next (respond 0 { s with tx := { s.tx with len := 0 } })) ∧
    ∀ arg : Half, arg ≠ 0 → IllegalWord (0x10#8 ++ arg)

/-- 41_encode.md R153: BadState in SEND, then Overflow on a full buffer; otherwise the byte is at the cell `tx_len`,
every other cell reads as before, `tx_len` is one more, and nothing else changes. -/
def Obligations.TxPushAppends : Prop :=
  ∀ (s : State) (imm8 : Byte),
    encode (.txPush imm8) = .command (0x1100#16 ++ imm8) ∧
    (s.tx.state = .send → exec (.txPush imm8) s = .next (takeFault .badState s)) ∧
    (s.tx.state = .idle → s.tx.len.toNat = s.cfg.payloadMax.val →
      exec (.txPush imm8) s = .next (takeFault .overflow s)) ∧
    (s.tx.state = .idle → s.tx.len.toNat < s.cfg.payloadMax.val →
      ∃ buf, exec (.txPush imm8) s =
          .next (respond 0 { s with tx := { s.tx with buf := buf, len := s.tx.len + 1 } }) ∧
        (s.tx.len + 1).toNat = s.tx.len.toNat + 1 ∧
        Memory.read buf s.tx.len.toNat = some imm8 ∧
        ∀ a, a ≠ s.tx.len.toNat → Memory.read buf a = Memory.read s.tx.buf a) ∧
    ∀ high : Byte, high ≠ 0 → IllegalWord (0x11#8 ++ (high ++ imm8))

/-- 41_encode.md R154. -/
def Obligations.TxSendStartsFrame : Prop :=
  ∀ (s : State) (imm8 : Byte),
    encode (.txSend imm8) = .command (0x1200#16 ++ imm8) ∧
    (s.tx.state = .send → exec (.txSend imm8) s = .next (takeFault .badState s)) ∧
    (s.tx.state = .idle → exec (.txSend imm8) s =
      .next (respond 0 { s with tx := { s.tx with cmd := imm8, idx := 0, crc := 0x0000, state := .send } })) ∧
    ∀ high : Byte, high ≠ 0 → IllegalWord (0x12#8 ++ (high ++ imm8))

/-- 41_encode.md R156. -/
def Obligations.SetSeqWritesSeq : Prop :=
  ∀ (s : State) (imm16 : Half),
    encode (.setSeq imm16) = .command (0x13#8 ++ imm16) ∧
    (s.tx.state = .send → exec (.setSeq imm16) s = .next (takeFault .badState s)) ∧
    (s.tx.state = .idle →
      exec (.setSeq imm16) s = .next (respond 0 { s with tx := { s.tx with seq := imm16 } }))

/-- 43_host_access.md R203: NoData unless an Ok datagram is held and the index is below `rx_len`; then the byte of that
cell, zero-extended, and no effect. -/
def Obligations.RxReadLoads : Prop :=
  ∀ (s : State) (imm16 : Half), BlockInv s →
    encode (.rxRead imm16) = .command (0x20#8 ++ imm16) ∧
    (s.rx.state ≠ .done ∨ s.rx.result ≠ .ok → exec (.rxRead imm16) s = .next (takeFault .noData s)) ∧
    (s.rx.len.toNat ≤ imm16.toNat → exec (.rxRead imm16) s = .next (takeFault .noData s)) ∧
    (s.rx.state = .done → s.rx.result = .ok → imm16.toNat < s.rx.len.toNat →
      ∃ b, Memory.read s.rx.buf imm16.toNat = some b ∧
        exec (.rxRead imm16) s = .next (respond (b.setWidth 16) s))

/-- 43_host_access.md R204. -/
def Obligations.RxReleaseDiscards : Prop :=
  ∀ s : State,
    encode .rxRelease = .command 0x210000#24 ∧
    (s.rx.state ≠ .done → exec .rxRelease s = .next (takeFault .badState s)) ∧
    (s.rx.state = .done → exec .rxRelease s =
      .next (respond 0 { s with rx := { s.rx with state := .idle, result := .none } })) ∧
    ∀ arg : Half, arg ≠ 0 → IllegalWord (0x21#8 ++ arg)

/-- 43_host_access.md R205: every register of GET, the gate of registers 4 to 7, and the unassigned numbers. -/
def Obligations.GetReadsRegister : Prop :=
  ∀ s : State,
    (∀ imm8 : Byte, encode (.get imm8) = .command (0x3000#16 ++ imm8)) ∧
    exec (.get 0) s = .next (respond (statusWord s) s) ∧
    exec (.get 1) s = .next (respond s.crcAcc s) ∧
    exec (.get 2) s = .next (respond s.tx.seq s) ∧
    exec (.get 3) s = .next (respond s.tx.len s) ∧
    (s.rx.state ≠ .done ∨ s.rx.result ≠ .ok → ∀ imm8 : Byte, 4 ≤ imm8.toNat → imm8.toNat < 8 →
      exec (.get imm8) s = .next (takeFault .noData s)) ∧
    (s.rx.state = .done → s.rx.result = .ok →
      exec (.get 4) s = .next (respond (s.rx.cmd.setWidth 16) s) ∧
      exec (.get 5) s = .next (respond s.rx.len s) ∧
      exec (.get 6) s = .next (respond s.rx.seq s) ∧
      exec (.get 7) s = .next (respond (s.rx.ctrl.setWidth 16) s)) ∧
    (∀ imm8 : Byte, 8 ≤ imm8.toNat →
      exec (.get imm8) s = .next (takeFault .illegalCommand s) ∧ IllegalWord (0x3000#16 ++ imm8)) ∧
    ∀ high imm8 : Byte, high ≠ 0 → IllegalWord (0x30#8 ++ (high ++ imm8))

/-- 43_host_access.md R207. -/
def Obligations.ClrErrClearsMask : Prop :=
  ∀ s : State,
    encode .clrErr = .command 0x310000#24 ∧
    exec .clrErr s = .next (respond 0 { s with err := 0b0000#4 }) ∧
    ∀ arg : Half, arg ≠ 0 → IllegalWord (0x31#8 ++ arg)

/-- 10_state.md R44: every field of STATUS, assembled from the state at the moment of the GET, and no register of its
own. -/
def Obligations.StatusLayout : Prop :=
  ∀ s : State,
    exec (.get 0) s = .next (respond (statusWord s) s) ∧
    (statusWord s).extractLsb' 0 2 =
      (match s.rx.state with
        | .idle => 0#2
        | .recv => 1#2
        | .done => 2#2) ∧
    (statusWord s).extractLsb' 2 2 =
      (match s.rx.result with
        | .none => 0#2
        | .ok => 1#2
        | .malformed => 2#2
        | .checksumMismatch => 3#2) ∧
    (statusWord s).extractLsb' 4 1 =
      (match s.tx.state with
        | .idle => 0#1
        | .send => 1#1) ∧
    (statusWord s).extractLsb' 5 3 = 0 ∧
    (statusWord s).extractLsb' 8 4 = s.err ∧
    (statusWord s).extractLsb' 12 4 = 0

/-- 42_decode_validate.md R187, 43_host_access.md R206: with the gate closed no command answers, and nothing it leaves
shows, anything the RX engine holds: replacing all of it but the state and the verdict changes no answer. -/
def Obligations.ClosedGateHidesDatagram : Prop :=
  ∀ (s t : State) (r' : RxEngine) (i : Instr),
    gateOpen s = false → i.isCommand = true → exec i s = .next t →
    exec i (withRxContent r' s) = .next (withRxContent r' t)

/-- 41_encode.md R155, 10_state.md R25, R28: in SEND no step but a reset changes the sequence number, the staged
payload, its length or the command id. -/
def Obligations.FrameInFlightImmutable : Prop :=
  ∀ s t : State, s.tx.state = .send → s.env.turns.head? ≠ some .rstAssert → step s = .next t →
    t.tx.seq = s.tx.seq ∧ t.tx.len = s.tx.len ∧ t.tx.cmd = s.tx.cmd ∧ t.tx.buf = s.tx.buf

/-! ## The serializer -/

/-- 41_encode.md R158: the byte of each index, by the invariant of 10_state.md R49. -/
def Obligations.TxByteTable : Prop :=
  ∀ (size : Nat) (t : TxEngine), TxInv size t →
    (t.idx.toNat = 0 → txByteAt size t = .ok 0x55) ∧
    (t.idx.toNat = 1 → txByteAt size t = .ok 0x66) ∧
    (t.idx.toNat = 2 → txByteAt size t = .ok 0x01) ∧
    (t.idx.toNat = 3 → txByteAt size t = .ok (t.len.extractLsb' 0 8)) ∧
    (t.idx.toNat = 4 → txByteAt size t = .ok (t.len.extractLsb' 8 8)) ∧
    (t.idx.toNat = 5 → txByteAt size t = .ok (t.seq.extractLsb' 0 8)) ∧
    (t.idx.toNat = 6 → txByteAt size t = .ok (t.seq.extractLsb' 8 8)) ∧
    (t.idx.toNat = 7 → txByteAt size t = .ok t.cmd) ∧
    (8 ≤ t.idx.toNat → t.idx.toNat < 8 + t.len.toNat →
      ∃ b, Memory.read t.buf (t.idx.toNat - 8) = some b ∧ txByteAt size t = .ok b) ∧
    (t.idx.toNat = 8 + t.len.toNat → txByteAt size t = .ok (t.crc.extractLsb' 0 8)) ∧
    (t.idx.toNat = 9 + t.len.toNat → txByteAt size t = .ok (t.crc.extractLsb' 8 8))

/-- 41_encode.md R159: what a TxByte step writes and hands to the sink, and when it is enabled. -/
def Obligations.TxByteStep : Prop :=
  ∀ (s : State) (ts : List Turn) (b : Byte), s.env.rst = false → s.env.turns = .sink :: ts →
    (s.tx.state = .idle → step s = .next (afterTurn ts s)) ∧
    (s.tx.state = .send → txByteAt s.cfg.payloadMax.val s.tx = .ok b →
      step s = .next
        { s with
          tx := { s.tx with
            crc := if s.tx.idx.toNat < 8 + s.tx.len.toNat then crcStep s.tx.crc b else s.tx.crc
            state := if s.tx.idx.toNat = 9 + s.tx.len.toNat then .idle else .send
            idx := if s.tx.idx.toNat = 9 + s.tx.len.toNat then 0 else s.tx.idx + 1 }
          env := { s.env with
            turns := ts
            txOut := s.env.txOut ++ [(b, decide (s.tx.idx.toNat = 9 + s.tx.len.toNat))] } })

/-- 41_encode.md R160: after TX_SEND the next `10 + L` TxByte steps emit exactly `encode(id, s, P)`, `last` on the final
byte only, and leave the staged payload. -/
def Obligations.TxLaw : Prop :=
  ∀ (s : State) (id : Byte) (payload : List Byte) (ts : List Turn) (ws : List CmdWord),
    s.tx.state = .idle → s.tx.len.toNat ≤ s.cfg.payloadMax.val →
    Memory.firstN s.tx.buf s.tx.len.toNat = some payload →
    s.env.rst = false →
    s.env.turns = .host :: List.replicate (10 + s.tx.len.toNat) .sink ++ ts →
    s.env.hostIn = (0x1200#16 ++ id) :: ws →
    runSteps (11 + s.tx.len.toNat) s = .next
      { s with
        tx := { s.tx with cmd := id, idx := 0, crc := checksum (encodePre id s.tx.seq payload) }
        env := { s.env with
          turns := ts, hostIn := ws
          respOut := s.env.respOut ++ [0x10000#17]
          txOut := s.env.txOut ++ markLast (encodeFrame id s.tx.seq payload) } }

/-- 10_state.md R49 (f), 41_encode.md R160 under every interleaving: in SEND the sink has taken the first `tx_idx` bytes
of the frame and `tx_crc` sums them, and every step of every agent keeps that; the TxByte step with `last` completes
the frame. -/
def Obligations.EmittedBytesAreTheFrame : Prop :=
  (∀ s t : State, BlockInv s → TxEmitted s → step s = .next t → TxEmitted t) ∧
  (∀ (s t : State) (ts : List Turn), BlockInv s → TxEmitted s → s.env.rst = false → s.env.turns = .sink :: ts →
    s.tx.state = .send → s.tx.idx.toNat = 9 + s.tx.len.toNat → step s = .next t →
    t.tx.state = .idle ∧ ∃ payload before, Memory.firstN s.tx.buf s.tx.len.toNat = some payload ∧
      t.env.txOut = before ++ markLast (encodeFrame s.tx.cmd s.tx.seq payload))

/-- 41_encode.md R151, R163: the bytes of an encoded frame are a valid frame of `10 + |P|` bytes. -/
def Obligations.EncodedFramesValid : Prop :=
  ∀ (id : Byte) (seq : Half) (payload : List Byte), payload.length ≤ 65535 →
    (encodeFrame id seq payload).length = 10 + payload.length ∧
    validFrame (encodeFrame id seq payload) = true

/-! ## The deserializer and validator -/

/-- 42_decode_validate.md R184, the source's first testable property: `decode(encode(id, P)) = (id, P)`. -/
def Obligations.DecodeEncodeRoundTrip : Prop :=
  ∀ (id : Byte) (seq : Half) (payload : List Byte), payload.length ≤ 65535 →
    decodeFrame (encodeFrame id seq payload) =
      .ok id payload 0x01 seq (BitVec.ofNat 16 payload.length)

/-- 42_decode_validate.md R171, R182: the verdict is Ok exactly on valid frames; a valid frame with bytes added or taken
away at its end is Malformed. -/
def Obligations.ValidatorAcceptsValidFrames : Prop :=
  (∀ d : List Byte, validFrame d = true ↔ ∃ cmd payload ctrl seq len, decodeFrame d = .ok cmd payload ctrl seq len) ∧
  (∀ d extra : List Byte, validFrame d = true → extra ≠ [] → decodeFrame (d ++ extra) = .malformed) ∧
  (∀ (d : List Byte) (k : Nat), validFrame d = true → k < d.length → decodeFrame (d.take k) = .malformed)

/-- 42_decode_validate.md R188 (a) to (e): one flipped bit of a valid frame is never accepted, and which verdict it
gives. -/
def Obligations.FlippedBitRejected : Prop :=
  ∀ (d : List Byte) (i : Nat) (j : Fin 8), validFrame d = true → i < d.length →
    decodeFrame (flipBit d i j) =
      if i = 0 ∨ i = 1 ∨ i = 3 ∨ i = 4 then .malformed else .checksumMismatch

/-- 42_decode_validate.md R172: in DONE the stream is stalled and the byte stays with the source; otherwise the byte is
taken, and nothing outside the RX engine changes. -/
def Obligations.RxByteEnabled : Prop :=
  ∀ (s : State) (ts : List Turn) (b : Byte) (last : Bool) (bytes : List StreamByte),
    s.env.rst = false → s.env.turns = .source :: ts → s.env.rxIn = (b, last) :: bytes →
    (s.rx.state = .done → step s = .next (afterTurn ts s)) ∧
    (s.rx.state ≠ .done → step s = .next
      { s with
        rx := rxStep s.cfg.payloadMax.val b last s.rx
        env := { s.env with turns := ts, rxIn := bytes } })

/-- 42_decode_validate.md R174 to R180 for a byte inside a datagram: which register the byte of each index goes to, and
that every other keeps its value. -/
def Obligations.RxByteByIndex : Prop :=
  ∀ (size : Nat) (r : RxEngine) (b : Byte), r.state = .recv →
    let i := r.cnt.toNat
    let L := r.len.toNat
    let t := rxStep size b false r
    t.state = .recv ∧ t.result = r.result ∧
    t.cnt.toNat = min (i + 1) 0x1FFFF ∧
    (t.hdrBad = true ↔ r.hdrBad = true ∨ (i = 0 ∧ b ≠ 0x55) ∨ (i = 1 ∧ b ≠ 0x66)) ∧
    t.ctrl = (if i = 2 then b else r.ctrl) ∧
    t.len.extractLsb' 0 8 = (if i = 3 then b else r.len.extractLsb' 0 8) ∧
    t.len.extractLsb' 8 8 = (if i = 4 then b else r.len.extractLsb' 8 8) ∧
    t.seq.extractLsb' 0 8 = (if i = 5 then b else r.seq.extractLsb' 0 8) ∧
    t.seq.extractLsb' 8 8 = (if i = 6 then b else r.seq.extractLsb' 8 8) ∧
    t.cmd = (if i = 7 then b else r.cmd) ∧
    t.crc = (if i < 8 ∨ i < 8 + L then crcStep r.crc b else r.crc) ∧
    (8 ≤ i → i < 8 + L → i - 8 < size → Memory.read t.buf (i - 8) = some b) ∧
    (∀ a, ¬ (8 ≤ i ∧ i < 8 + L ∧ i - 8 < size ∧ a = i - 8) → Memory.read t.buf a = Memory.read r.buf a) ∧
    t.fcs.extractLsb' 0 8 = (if 8 ≤ i ∧ i = 8 + L then b else r.fcs.extractLsb' 0 8) ∧
    t.fcs.extractLsb' 8 8 = (if 8 ≤ i ∧ i = 9 + L then b else r.fcs.extractLsb' 8 8)

/-- 42_decode_validate.md R173, R180, R181: the first byte of a datagram initialises the RX registers, whatever they held,
and keeps the buffer; a byte that is not the last leaves RECV and the verdict, and is counted; the last byte is taken as
any other, then the verdict is the first test that applies, in order. -/
def Obligations.RxFirstAndLastByte : Prop :=
  ∀ (size : Nat) (r : RxEngine) (b : Byte), r.state ≠ .done →
    let u := rxStep size b false r
    (r.state = .idle →
      u = { state := .recv, result := r.result, cnt := 1, hdrBad := decide (b ≠ 0x55), ctrl := 0, len := 0, seq := 0,
            cmd := 0, crc := crcStep 0x0000 b, fcs := 0, buf := r.buf }) ∧
    u.state = .recv ∧ u.result = r.result ∧
    u.cnt.toNat = min ((if r.state = .idle then 0 else r.cnt.toNat) + 1) 0x1FFFF ∧
    rxStep size b true r =
      { u with
        state := .done
        result :=
          if u.cnt.toNat < 10 ∨ u.hdrBad = true then .malformed
          else if u.cnt.toNat ≠ 10 + u.len.toNat then .malformed
          else if size < u.len.toNat then .malformed
          else if u.crc ≠ u.fcs then .checksumMismatch
          else .ok }

/-- 42_decode_validate.md R184: a datagram presented by consecutive RxByte steps from IDLE is judged as `decode` judges
it, and an Ok datagram's fields and payload are held. With a smaller buffer an over-long payload is Malformed (R180,
R181). -/
def Obligations.RxLaw : Prop :=
  ∀ (s : State) (d : List Byte) (ts : List Turn) (bytes : List StreamByte),
    s.rx.state = .idle → d ≠ [] → s.env.rst = false →
    s.env.turns = List.replicate d.length .source ++ ts → s.env.rxIn = markLast d ++ bytes →
    ∃ r, runSteps d.length s = .next
        { s with rx := r, env := { s.env with turns := ts, rxIn := bytes } } ∧
      r.state = .done ∧ r.result = blockVerdict s.cfg.payloadMax.val d ∧
      (s.cfg.payloadMax.val = 65535 →
        (r.result = .malformed ↔ decodeFrame d = .malformed) ∧
        (r.result = .checksumMismatch ↔ decodeFrame d = .checksumMismatch)) ∧
      ∀ cmd payload ctrl seq len, decodeFrame d = .ok cmd payload ctrl seq len →
        len.toNat ≤ s.cfg.payloadMax.val →
        r.result = .ok ∧ r.cmd = cmd ∧ r.len = len ∧ r.seq = seq ∧ r.ctrl = ctrl ∧
        Memory.firstN r.buf len.toNat = some payload

/-- 10_state.md R49 (g), 42_decode_validate.md R184 under every interleaving. A step that takes bytes from the source
removes exactly those from its queue, begins with them in IDLE, puts them behind those of the current datagram in RECV,
ends in DONE with the verdict of all of them if the last one says so and else in RECV. Every other step but the
assertion of rst leaves every RX register, or is RX_RELEASE in DONE. So the registers always stand for some datagram,
and a held verdict is that datagram's. -/
def Obligations.RxRegistersRepresentDatagram : Prop :=
  ∀ (s t : State) (u : Turn) (ts : List Turn), s.env.turns = u :: ts → step s = .next t →
    let size := s.cfg.payloadMax.val
    let taken := takenBytes u s
    let bytes := taken.map Prod.fst
    t.env.rxIn = s.env.rxIn.drop taken.length ∧
    (taken ≠ [] →
      t.rx.state = (if taken.getLast?.any Prod.snd = true then .done else .recv) ∧
      ∀ d, (s.rx.state = .idle ∧ d = []) ∨ (s.rx.state = .recv ∧ d ≠ [] ∧ RxHolds size d s.rx) →
        RxHolds size (d ++ bytes) t.rx ∧ (t.rx.state = .done → t.rx.result = blockVerdict size (d ++ bytes))) ∧
    (taken = [] → u ≠ .rstAssert →
      t.rx = s.rx ∨
      (u = .host ∧ s.rx.state = .done ∧ s.env.hostIn.head? = some 0x210000#24 ∧
        t.rx = { s.rx with state := .idle, result := .none })) ∧
    (RxRepresents s → RxRepresents t)

/-- 10_state.md R33, 42_decode_validate.md R185: the transitions of `rx_state`, and that no other exists but by reset. -/
def Obligations.RxTransitions : Prop :=
  ∀ (s t : State) (u : Turn) (ts : List Turn), s.env.turns = u :: ts → step s = .next t →
    t.rx.state ≠ s.rx.state →
    ((u = .source ∨ u = .datagram) ∧
      ((s.rx.state = .idle ∧ (t.rx.state = .recv ∨ t.rx.state = .done)) ∨
       (s.rx.state = .recv ∧ t.rx.state = .done))) ∨
    (u = .host ∧ s.rx.state = .done ∧ t.rx.state = .idle ∧ t.rx.result = .none ∧
      ∃ ws, s.env.hostIn = 0x210000#24 :: ws) ∨
    (u = .rstAssert ∧ t.rx = RxEngine.reset)

/-- The wire row FRAME (30_encoding.md R90; 42_decode_validate.md R170, R180, R181): such a frame, arriving as one
datagram outside DONE, is taken byte by byte and ends the datagram; from IDLE it is judged, its fields and as much of
its payload as has cells are held, and every other cell stays. While a datagram is held its bytes stay with the source.
That a FRAME row runs as an arrival is the model's choice (log 6, log 7). -/
def Obligations.FrameArrives : Prop :=
  ∀ (s : State) (f : WireFrame), f.wellFormed = true →
    let size := s.cfg.payloadMax.val
    let L := f.len.toNat
    let r := rxSteps size (markLast (frameBytes f)) s.rx
    (s.rx.state ≠ .done → exec (.frame f) s = .next { s with rx := r } ∧ r.state = .done ∧ r.result ≠ .none) ∧
    (s.rx.state = .idle →
      r.result =
        (if size < L then .malformed
         else if checksum ((frameBytes f).take (8 + L)) ≠ f.crc16 then .checksumMismatch
         else .ok) ∧
      r.cmd = f.cmdId ∧ r.len = f.len ∧ r.seq = f.seq ∧ r.ctrl = f.ctrl ∧ r.cnt.toNat = 10 + L ∧ r.hdrBad = false ∧
      r.crc = checksum ((frameBytes f).take (8 + L)) ∧ r.fcs = f.crc16 ∧
      (∀ k, k < L → k < size → Memory.read r.buf k = f.payload[k]?) ∧
      ∀ k, ¬ (k < L ∧ k < size) → Memory.read r.buf k = Memory.read s.rx.buf k) ∧
    (s.rx.state = .done → exec (.frame f) s =
      .next { s with env := { s.env with rxIn := markLast (frameBytes f) ++ s.env.rxIn } })

/-- The wire row AUTO_CENTER (30_encoding.md R108; 95_test_vectors.md V1): Ok with command id 08, payload 01, control
01, sequence 0 whenever the buffer has a cell. That the row runs as an arrival is the model's choice (log 6, log 7). -/
def Obligations.AutoCenterArrives : Prop :=
  ∀ s : State,
    let size := s.cfg.payloadMax.val
    let r := rxSteps size (markLast autoCenterBytes) s.rx
    (s.rx.state ≠ .done → exec .autoCenter s = .next { s with rx := r } ∧ r.state = .done ∧ r.result ≠ .none) ∧
    (s.rx.state = .idle →
      r.result = (if size = 0 then .malformed else .ok) ∧
      r.cmd = 0x08 ∧ r.len = 1 ∧ r.seq = 0 ∧ r.ctrl = 0x01 ∧ r.cnt = 11 ∧ r.hdrBad = false ∧
      r.crc = 0x12D1 ∧ r.fcs = 0x12D1 ∧
      (size ≠ 0 → Memory.read r.buf 0 = some 0x01) ∧
      ∀ k, ¬ (k = 0 ∧ size ≠ 0) → Memory.read r.buf k = Memory.read s.rx.buf k) ∧
    (s.rx.state = .done → exec .autoCenter s =
      .next { s with env := { s.env with rxIn := markLast autoCenterBytes ++ s.env.rxIn } })

/-! ## The machine -/

/-- A step runs the decoded instruction: for every row that decodes, placed as the next one; and at the command port, the
word is consumed and its instruction run on the rest (43_host_access.md R201; log 18). -/
def Obligations.StepRunsDecoded : Prop :=
  (∀ (s : State) (nbits w : Nat) (i : Instr), decodeTableWord nbits w = some i →
    step (s.withFetchWord nbits w) = exec i (releaseReset s)) ∧
  (∀ (s : State) (w : CmdWord) (i : Instr) (ts : List Turn) (ws : List CmdWord),
    s.env.rst = false → s.env.turns = .host :: ts → s.env.hostIn = w :: ws → decode (.command w) = .ok i →
    step s = exec i { s with env := { s.env with turns := ts, hostIn := ws } })

/-- The turn `datagram` is a shorthand (log 6): in every state it leaves what as many RxByte turns as it has bytes
leave, rst asserted or not, the datagram ended or not, the stream stalled or not. Its bytes are those up to the first
`last` of the queue, or all of them if none is ended yet. -/
def Obligations.DatagramTurnIsByteTurns : Prop :=
  (∀ (s : State) (ts : List Turn),
    step (afterTurn (.datagram :: ts) s) =
      runSteps (splitDatagram s.env.rxIn).1.length
        (afterTurn (List.replicate (splitDatagram s.env.rxIn).1.length .source ++ ts) s)) ∧
  (∀ (d : List Byte) (bytes : List StreamByte), d ≠ [] → splitDatagram (markLast d ++ bytes) = (markLast d, bytes)) ∧
  (∀ bytes : List StreamByte, (∀ c ∈ bytes, c.2 = false) → splitDatagram bytes = (bytes, []))

/-- 00_scope.md R7: a step that is not enabled does not happen. What the model does then is its own choice: the turn
passes (log 2), and with no turn left the run is over (log 3). -/
def Obligations.DisabledTurnsPass : Prop :=
  ∀ (s : State) (ts : List Turn),
    step (afterTurn [] s) = .fault .noTurn ∧
    (s.env.hostIn = [] → step (afterTurn (.host :: ts) s) = .next (afterTurn ts s)) ∧
    (s.env.rxIn = [] ∨ s.rx.state = .done → step (afterTurn (.source :: ts) s) = .next (afterTurn ts s)) ∧
    (s.tx.state = .idle → step (afterTurn (.sink :: ts) s) = .next (afterTurn ts s)) ∧
    (s.rx.state = .done → step (afterTurn (.datagram :: ts) s) = .next (afterTurn ts s))

/-- 10_state.md R48: every register after reset. -/
def Obligations.ResetRegisters : Prop :=
  State.reset.crcAcc = 0x0000 ∧ State.reset.err = 0b0000#4 ∧
  State.reset.tx.seq = 0x0000 ∧ State.reset.tx.state = .idle ∧ State.reset.tx.len = 0x0000 ∧
  State.reset.tx.cmd = 0x00 ∧ State.reset.tx.idx = 0 ∧ State.reset.tx.crc = 0x0000 ∧
  State.reset.rx.state = .idle ∧ State.reset.rx.result = .none ∧ State.reset.rx.cnt = 0 ∧
  State.reset.rx.hdrBad = false ∧ State.reset.rx.ctrl = 0x00 ∧ State.reset.rx.len = 0x0000 ∧
  State.reset.rx.seq = 0x0000 ∧ State.reset.rx.cmd = 0x00 ∧ State.reset.rx.crc = 0x0000 ∧
  State.reset.rx.fcs = 0x0000

/-- 70_reset_and_hazards.md R280: asserting `rst` gives every register its reset value, in any state; while it is
asserted no step is enabled; releasing it changes nothing else. -/
def Obligations.ResetAsserted : Prop :=
  ∀ (s : State) (u : Turn) (ts : List Turn),
    step (afterTurn (.rstAssert :: ts) s) = .next
      { State.reset with cfg := s.cfg, env := { s.env with turns := ts, rst := true } } ∧
    (s.env.rst = true → u ∈ [Turn.host, .source, .datagram, .sink] →
      step (afterTurn (u :: ts) s) = .next (afterTurn ts s)) ∧
    step (afterTurn (.rstRelease :: ts) s) = .next { s with env := { s.env with turns := ts, rst := false } }

/-- 10_state.md R49 at reset. -/
def Obligations.InvariantAtReset : Prop :=
  BlockInv State.reset ∧ TxEmitted State.reset ∧ RxRepresents State.reset

/-- 10_state.md R49: every step of every agent keeps the invariant: the payload length within the buffer, the index
within the frame, a verdict exactly while a datagram is held, every readable cell written, the buffers' form. -/
def Obligations.InvariantKept : Prop :=
  ∀ s t : State, BlockInv s → step s = .next t → BlockInv t

/-- 60_exceptions.md R252, R254: from a state with the invariant nothing an agent does stops the machine: whatever turn
is next, whatever word or byte is presented, there is a next state. -/
def Obligations.NoTurnStops : Prop :=
  ∀ s : State, BlockInv s → s.env.turns ≠ [] → ∃ t, step s = .next t

/-- 10_state.md R24, 40_crc.md R137: only CRC_CLEAR, CRC_BYTE and reset write `crc_acc`. -/
def Obligations.CrcAccWriters : Prop :=
  ∀ (s t : State) (u : Turn) (ts : List Turn), s.env.turns = u :: ts → step s = .next t →
    t.crcAcc ≠ s.crcAcc →
    (u = .rstAssert ∧ t.crcAcc = 0x0000) ∨
    (u = .host ∧ ∃ w ws, s.env.hostIn = w :: ws ∧
      ((decode (.command w) = .ok .crcClear ∧ t.crcAcc = 0x0000) ∨
       ∃ b, decode (.command w) = .ok (.crcByte b) ∧ t.crcAcc = crcStep s.crcAcc b))

/-- 30_encoding.md R107, 40_crc.md R137: the expansion of `CRC16 bytes` answers their checksum and writes `crc_acc`
only. -/
def Obligations.Crc16Pseudo : Prop :=
  ∀ (s : State) (bytes : List Byte) (ts : List Turn) (ws : List CmdWord),
    s.env.rst = false → s.env.turns = List.replicate (bytes.length + 2) .host ++ ts →
    s.env.hostIn = commandWords (crc16Commands bytes) ++ ws →
    runSteps (bytes.length + 2) s = .next
      { s with
        crcAcc := checksum bytes
        env := { s.env with
          turns := ts, hostIn := ws
          respOut := s.env.respOut ++ (List.replicate (bytes.length + 1) 0x10000#17 ++ [0b1#1 ++ checksum bytes]) } }

/-- 30_encoding.md R107, 41_encode.md R160: the commands of `ENCODE id, payload` stage exactly that payload and start
its frame, whatever was staged before. -/
def Obligations.EncodePseudoStages : Prop :=
  ∀ (s : State) (id : Byte) (payload : List Byte) (ts : List Turn) (ws : List CmdWord),
    s.tx.state = .idle → payload.length ≤ s.cfg.payloadMax.val → s.env.rst = false →
    s.env.turns = List.replicate (payload.length + 2) .host ++ ts →
    s.env.hostIn = commandWords (encodeCommands id payload) ++ ws →
    ∃ buf, runSteps (payload.length + 2) s = .next
        { s with
          tx := { s.tx with
            state := .send, len := BitVec.ofNat 16 payload.length, cmd := id, idx := 0, crc := 0x0000, buf := buf }
          env := { s.env with
            turns := ts, hostIn := ws
            respOut := s.env.respOut ++ List.replicate (payload.length + 2) 0x10000#17 } } ∧
      Memory.firstN buf payload.length = some payload

/-- 10_state.md R26: a bit of `err` is set only by a host command that faults with its cause, all are cleared only by
CLR_ERR and reset, and nothing else touches the mask. -/
def Obligations.ErrIsSticky : Prop :=
  ∀ (s t : State) (u : Turn) (ts : List Turn), s.env.turns = u :: ts → step s = .next t →
    t.err = s.err ∨
    (u = .rstAssert ∧ t.err = 0) ∨
    (u = .host ∧ ∃ w ws, s.env.hostIn = w :: ws ∧
      ((decode (.command w) = .ok .clrErr ∧ t.err = 0) ∨
       ∃ c, t.err = s.err ||| causeBit c ∧ t.env.respOut = s.env.respOut ++ [faultResp c] ∧
         t.crcAcc = s.crcAcc ∧ t.tx = s.tx ∧ t.rx = s.rx))

/-- 60_exceptions.md R264, R250: an RxByte step writes the RX engine only, a TxByte step the TX engine only, and a host
command writes of the RX engine nothing but its state and verdict. -/
def Obligations.EnginesIndependent : Prop :=
  ∀ (s t : State) (u : Turn) (ts : List Turn), s.env.turns = u :: ts → step s = .next t →
    (u = .source ∨ u = .datagram →
      t = { s with rx := t.rx, env := { s.env with turns := ts, rxIn := t.env.rxIn } }) ∧
    (u = .sink →
      t = { s with tx := t.tx, env := { s.env with turns := ts, txOut := t.env.txOut } }) ∧
    (u = .host →
      t.rx = { s.rx with state := t.rx.state, result := t.rx.result } ∧
      t.env = { s.env with turns := ts, hostIn := t.env.hostIn, respOut := t.env.respOut } ∧ t.cfg = s.cfg)

/-- 10_state.md R47, 60_exceptions.md R256: the level outputs, and that `tx_data` and `tx_last` show what the next TxByte
step emits. In IDLE `tx_data` is the byte of index 0 (DEDUCED, log 20). -/
def Obligations.OutputPorts : Prop :=
  ∀ s : State,
    (rxReadyPort s = true ↔ s.rx.state ≠ .done) ∧
    (rxDonePort s = true ↔ s.rx.state = .done) ∧
    (rxOkPort s = true ↔ s.rx.result = .ok) ∧
    (txBusyPort s = true ↔ s.tx.state = .send) ∧
    (txValidPort s = true ↔ s.tx.state = .send) ∧
    (errAnyPort s = true ↔ s.err ≠ 0) ∧
    (BlockInv s → s.tx.state = .idle → txDataPort s = some 0x55) ∧
    (BlockInv s → s.tx.state = .send → ∃ b t, txDataPort s = some b ∧
      step (afterTurn [.sink] { s with env := { s.env with rst := false } }) = .next t ∧
      t.env.txOut = s.env.txOut ++ [(b, txLastPort s)])
end

