-- ==== Sys2Proof/Laws/Bits.lean ====
section
/-! SUPPORT. The laws of the byte-order helpers, of command words and of the checksum's steps. -/

namespace Sys2Proof

theorem toNat_unle16 (lo hi : Byte) : (unle16 lo hi).toNat = hi.toNat * 2 ^ 8 + lo.toNat := by
  unfold unle16
  erw [BitVec.toNat_append]
  rw [← Nat.shiftLeft_add_eq_or_of_lt lo.isLt, Nat.shiftLeft_eq]

theorem toNat_lo8 (v : Half) : (lo8 v).toNat = v.toNat % 2 ^ 8 := by
  simp [lo8, BitVec.extractLsb'_toNat]

theorem toNat_hi8 (v : Half) : (hi8 v).toNat = v.toNat / 2 ^ 8 := by
  simp [hi8, BitVec.extractLsb'_toNat, Nat.shiftRight_eq_div_pow]
  omega

@[simp] theorem lo8_unle16 (lo hi : Byte) : lo8 (unle16 lo hi) = lo := by
  apply BitVec.eq_of_toNat_eq
  rw [toNat_lo8, toNat_unle16]
  omega

@[simp] theorem hi8_unle16 (lo hi : Byte) : hi8 (unle16 lo hi) = hi := by
  apply BitVec.eq_of_toNat_eq
  rw [toNat_hi8, toNat_unle16]
  omega

@[simp] theorem unle16_lo8_hi8 (v : Half) : unle16 (lo8 v) (hi8 v) = v := by
  apply BitVec.eq_of_toNat_eq
  rw [toNat_unle16, toNat_lo8, toNat_hi8]
  omega

@[simp] theorem length_le16 (v : Half) : (le16 v).length = 2 := rfl

theorem toNat_cmdWord (op : Byte) (arg : Half) : (cmdWord op arg).toNat = op.toNat * 2 ^ 16 + arg.toNat := by
  unfold cmdWord
  erw [BitVec.toNat_append]
  rw [← Nat.shiftLeft_add_eq_or_of_lt arg.isLt, Nat.shiftLeft_eq]

theorem toNat_byteArg (imm8 : Byte) : (byteArg imm8).toNat = imm8.toNat := by
  unfold byteArg
  erw [BitVec.toNat_append]
  simp

theorem toNat_opOf (w : CmdWord) : (opOf w).toNat = w.toNat / 2 ^ 16 := by
  simp [opOf, BitVec.extractLsb'_toNat, Nat.shiftRight_eq_div_pow]
  omega

theorem toNat_argOf (w : CmdWord) : (argOf w).toNat = w.toNat % 2 ^ 16 := by
  simp [argOf, BitVec.extractLsb'_toNat]

theorem toNat_argHighOf (w : CmdWord) : (argHighOf w).toNat = w.toNat / 2 ^ 8 % 2 ^ 8 := by
  simp [argHighOf, BitVec.extractLsb'_toNat, Nat.shiftRight_eq_div_pow]

theorem toNat_imm8Of (w : CmdWord) : (imm8Of w).toNat = w.toNat % 2 ^ 8 := by
  simp [imm8Of, BitVec.extractLsb'_toNat]

@[simp] theorem opOf_cmdWord (op : Byte) (arg : Half) : opOf (cmdWord op arg) = op := by
  apply BitVec.eq_of_toNat_eq
  rw [toNat_opOf, toNat_cmdWord]
  omega

@[simp] theorem argOf_cmdWord (op : Byte) (arg : Half) : argOf (cmdWord op arg) = arg := by
  apply BitVec.eq_of_toNat_eq
  rw [toNat_argOf, toNat_cmdWord]
  omega

@[simp] theorem argHighOf_byteArg (op imm8 : Byte) : argHighOf (cmdWord op (byteArg imm8)) = 0 := by
  apply BitVec.eq_of_toNat_eq
  rw [toNat_argHighOf, toNat_cmdWord, toNat_byteArg]
  simp
  omega

@[simp] theorem imm8Of_byteArg (op imm8 : Byte) : imm8Of (cmdWord op (byteArg imm8)) = imm8 := by
  apply BitVec.eq_of_toNat_eq
  rw [toNat_imm8Of, toNat_cmdWord, toNat_byteArg]
  omega

/-- A word is its operation and its operand field (30_encoding.md R100). -/
theorem cmdWord_opOf_argOf (w : CmdWord) : cmdWord (opOf w) (argOf w) = w := by
  apply BitVec.eq_of_toNat_eq
  rw [toNat_cmdWord, toNat_opOf, toNat_argOf]
  omega

/-- With a zero byte above it the operand field is its low byte (30_encoding.md R101, format B). -/
theorem argOf_eq_byteArg {w : CmdWord} (h : argHighOf w = 0) : argOf w = byteArg (imm8Of w) := by
  have h' := congrArg BitVec.toNat h
  rw [toNat_argHighOf] at h'
  apply BitVec.eq_of_toNat_eq
  rw [toNat_argOf, toNat_byteArg, toNat_imm8Of]
  simp at h'
  omega

@[simp] theorem wireInstr_of_ne {f : WireFrame} (h : f ≠ autoCenterFrame) : wireInstr f = .frame f := by
  simp [wireInstr, h]

namespace Machine

/-- The table's shift step is linear over exclusive OR (40_crc.md R134). -/
theorem crcShift_xor (r q : Half) : crcShift (r ^^^ q) = crcShift r ^^^ crcShift q := by
  unfold crcShift
  rw [BitVec.msb_xor, BitVec.shiftLeft_xor_distrib]
  have h : poly ^^^ poly = 0 := by decide
  cases r.msb <;> cases q.msb <;> simp
  · ac_rfl
  · ac_rfl
  · rw [show r <<< 1 ^^^ poly ^^^ (q <<< 1 ^^^ poly) = r <<< 1 ^^^ q <<< 1 ^^^ (poly ^^^ poly) by ac_rfl, h]
    simp

@[simp] theorem crcShift_zero : crcShift 0 = 0 := by decide

theorem crcShift8_xor (r q : Half) : crcShift8 (r ^^^ q) = crcShift8 r ^^^ crcShift8 q := by
  simp only [crcShift8, crcShift_xor]

/-- Placing a byte in the high byte. -/
theorem toNat_highByte (i : Byte) : (i ++ (0 : Byte) : Half).toNat = i.toNat * 2 ^ 8 := by
  erw [BitVec.toNat_append]
  simp [Nat.shiftLeft_eq]

theorem highByte_xor (i j : Byte) :
    ((i ^^^ j) ++ (0 : Byte) : Half) = (i ++ (0 : Byte) : Half) ^^^ (j ++ (0 : Byte) : Half) := by
  apply BitVec.eq_of_getLsbD_eq
  intro k hk
  rw [BitVec.getLsbD_xor]
  erw [BitVec.getLsbD_append, BitVec.getLsbD_append, BitVec.getLsbD_append]
  split <;> simp

/-- The table is linear. -/
theorem crcTable_xor (i j : Byte) : crcTable (i ^^^ j) = crcTable i ^^^ crcTable j := by
  unfold crcTable
  rw [highByte_xor, crcShift8_xor]

/-- A step is linear in the accumulator and the byte together. -/
theorem crcStep_xor (acc acc' : Half) (b b' : Byte) :
    crcStep (acc ^^^ acc') (b ^^^ b') = crcStep acc b ^^^ crcStep acc' b' := by
  unfold crcStep
  rw [BitVec.extractLsb'_xor,
    show acc.extractLsb' 8 8 ^^^ acc'.extractLsb' 8 8 ^^^ (b ^^^ b') =
      (acc.extractLsb' 8 8 ^^^ b) ^^^ (acc'.extractLsb' 8 8 ^^^ b') by ac_rfl,
    crcTable_xor, BitVec.shiftLeft_xor_distrib]
  ac_rfl

@[simp] theorem checksum_nil : checksum [] = 0 := rfl

/-- 40_crc.md R136 (a): one more byte is one more step. -/
theorem checksum_snoc (s : List Byte) (b : Byte) : checksum (s ++ [b]) = crcStep (checksum s) b := by
  simp [checksum]

/-- 40_crc.md R136 (a): the fold goes on from the checksum so far. -/
theorem checksum_append (s t : List Byte) : checksum (s ++ t) = t.foldl crcStep (checksum s) := by
  simp [checksum]

end Machine

end Sys2Proof
end

