-- ==== Sys2Proof/Laws/Memory.lean ====
section
/-! SUPPORT. The laws of buffer cells: a read after a write, and that a write keeps the canonical form. -/

namespace Sys2Proof.Machine

@[simp] theorem Memory.read_nil (a : Nat) : Memory.read [] a = none := rfl

/-- A cell reads what was last written to it. -/
@[simp] theorem Memory.read_write_same (m : Memory) (a : Nat) (b : Byte) :
    Memory.read (Memory.write m a b) a = some b := by
  induction m with
  | nil => simp [Memory.write, Memory.read]
  | cons c m ih =>
    obtain ⟨k, v⟩ := c
    unfold Memory.write
    split
    · simp [Memory.read]
    · split
      · simp [Memory.read]
      · simp [Memory.read, *]

/-- A write leaves every other cell alone. -/
theorem Memory.read_write_other (m : Memory) {a a' : Nat} (b : Byte) (h : a' ≠ a) :
    Memory.read (Memory.write m a b) a' = Memory.read m a' := by
  induction m with
  | nil => simp [Memory.write, Memory.read, h]
  | cons c m ih =>
    obtain ⟨k, v⟩ := c
    unfold Memory.write
    split
    · simp [Memory.read, h]
    · split
      · rename_i hk
        subst hk
        simp [Memory.read, h]
      · simp [Memory.read, ih]

/-- Reading any cell after a write. -/
theorem Memory.read_write (m : Memory) (a a' : Nat) (b : Byte) :
    Memory.read (Memory.write m a b) a' = if a' = a then some b else Memory.read m a' := by
  split
  · subst_vars; simp
  · exact Memory.read_write_other m b ‹_›

/-- The indices after a write are those before and the one written. -/
theorem Memory.mem_write {m : Memory} {a : Nat} {b : Byte} {c : Host.Cell} (h : c ∈ Memory.write m a b) :
    c.1 = a ∨ c ∈ m := by
  induction m with
  | nil => simp_all [Memory.write]
  | cons d m ih =>
    obtain ⟨k, v⟩ := d
    unfold Memory.write at h
    split at h
    · rcases List.mem_cons.1 h with h | h
      · exact .inl (by rw [h])
      · exact .inr h
    · split at h
      · rcases List.mem_cons.1 h with h | h
        · exact .inl (by rw [h])
        · exact .inr (List.mem_cons_of_mem _ h)
      · rcases List.mem_cons.1 h with h | h
        · exact .inr (by simp [h])
        · exact (ih h).imp_right (List.mem_cons_of_mem _)

/-- A write keeps the canonical form. -/
theorem Memory.write_wf {m : Memory} (a : Nat) (b : Byte) (h : Memory.wf m) : Memory.wf (Memory.write m a b) := by
  induction m with
  | nil => simp [Memory.write, Memory.wf]
  | cons c m ih =>
    obtain ⟨k, v⟩ := c
    have ⟨hk, hm⟩ := List.pairwise_cons.1 h
    unfold Memory.write
    split
    · rename_i hak
      refine List.pairwise_cons.2 ⟨fun d hd => ?_, h⟩
      rcases List.mem_cons.1 hd with rfl | hd
      · exact hak
      · exact Nat.lt_trans hak (hk d hd)
    · split
      · subst_vars
        exact List.pairwise_cons.2 ⟨hk, hm⟩
      · refine List.pairwise_cons.2 ⟨fun d hd => ?_, ih hm⟩
        rcases Memory.mem_write hd with hd | hd
        · simp only [hd]; omega
        · exact hk d hd

/-- A write inside the buffer adds no cell outside it. -/
theorem Memory.write_within {m : Memory} {size a : Nat} (b : Byte) (ha : a < size) (h : Memory.within size m) :
    Memory.within size (Memory.write m a b) := by
  intro c hc
  rcases Memory.mem_write hc with h' | h'
  · exact h' ▸ ha
  · exact h c h'

/-- The memories of the reset state have the canonical form. -/
theorem reset_memories_wf : Memory.wf State.reset.tx.buf ∧ Memory.wf State.reset.rx.buf := by decide

/-- What a read of a cell that exists and has been written gives. -/
theorem readCell_ok {size i : Nat} {m : Memory} {b : Byte} (hi : i < size) (h : Memory.read m i = some b) :
    readCell size m i = .ok b := by
  simp [readCell, hi, h]

/-- The only way a read of a cell succeeds. -/
theorem readCell_ok_iff {size i : Nat} {m : Memory} {b : Byte} :
    readCell size m i = .ok b ↔ i < size ∧ Memory.read m i = some b := by
  unfold readCell
  split
  · cases Memory.read m i <;> simp [*]
  · simp [*]

/-- The only way a write of a cell succeeds. -/
theorem writeCell_ok_iff {size i : Nat} {m m' : Memory} {b : Byte} :
    writeCell size m i b = .ok m' ↔ i < size ∧ m' = Memory.write m i b := by
  unfold writeCell
  split <;> simp [*, eq_comm]

/-- Reading a range, byte by byte. -/
theorem Memory.firstN_eq_some {m : Memory} {n : Nat} {bytes : List Byte} :
    Memory.firstN m n = some bytes ↔ bytes.length = n ∧ ∀ k < n, Memory.read m k = bytes[k]? := by
  induction n generalizing bytes with
  | zero => cases bytes <;> simp [Memory.firstN]
  | succ n ih =>
    unfold Memory.firstN
    constructor
    · intro h
      split at h
      · rename_i p b hp hb
        obtain ⟨hl, hr⟩ := ih.1 hp
        obtain rfl := Option.some.inj h
        refine ⟨by simp [hl], fun k hk => ?_⟩
        rcases Nat.lt_succ_iff_lt_or_eq.1 hk with hk | rfl
        · rw [hr k hk, List.getElem?_append_left (by omega)]
        · rw [hb, List.getElem?_append_right (by omega)]; simp [hl]
      · cases h
    · rintro ⟨hl, hr⟩
      obtain ⟨p, b, rfl⟩ : ∃ p b, bytes = p ++ [b] :=
        ⟨bytes.dropLast, bytes.getLast (by rintro rfl; simp at hl),
          (List.dropLast_append_getLast (by rintro rfl; simp at hl)).symm⟩
      have hp : p.length = n := by simpa using hl
      have h1 : Memory.firstN m n = some p := ih.2 ⟨hp, fun k hk => by
        rw [hr k (by omega), List.getElem?_append_left (by omega)]⟩
      have h2 : Memory.read m n = some b := by
        rw [hr n (by omega), List.getElem?_append_right (by omega)]; simp [hp]
      simp [h1, h2]

end Sys2Proof.Machine
end

