-- ==== Sys2Proof/Laws/State.lean ====
section
/-! SUPPORT. What each update of the state leaves in each field. -/

namespace Sys2Proof.Machine

@[simp] theorem present_cfg (r : RespWord) (s : State) : (present r s).cfg = s.cfg := rfl
@[simp] theorem present_crcAcc (r : RespWord) (s : State) : (present r s).crcAcc = s.crcAcc := rfl
@[simp] theorem present_err (r : RespWord) (s : State) : (present r s).err = s.err := rfl
@[simp] theorem present_tx (r : RespWord) (s : State) : (present r s).tx = s.tx := rfl
@[simp] theorem present_rx (r : RespWord) (s : State) : (present r s).rx = s.rx := rfl
@[simp] theorem present_env (r : RespWord) (s : State) :
    (present r s).env = { s.env with respOut := s.env.respOut ++ [r] } := rfl

@[simp] theorem respond_cfg (v : Half) (s : State) : (respond v s).cfg = s.cfg := rfl
@[simp] theorem respond_crcAcc (v : Half) (s : State) : (respond v s).crcAcc = s.crcAcc := rfl
@[simp] theorem respond_err (v : Half) (s : State) : (respond v s).err = s.err := rfl
@[simp] theorem respond_tx (v : Half) (s : State) : (respond v s).tx = s.tx := rfl
@[simp] theorem respond_rx (v : Half) (s : State) : (respond v s).rx = s.rx := rfl
@[simp] theorem respond_env (v : Half) (s : State) :
    (respond v s).env = { s.env with respOut := s.env.respOut ++ [okResp v] } := rfl

@[simp] theorem takeFault_cfg (c : Cause) (s : State) : (takeFault c s).cfg = s.cfg := rfl
@[simp] theorem takeFault_crcAcc (c : Cause) (s : State) : (takeFault c s).crcAcc = s.crcAcc := rfl
@[simp] theorem takeFault_err (c : Cause) (s : State) : (takeFault c s).err = s.err ||| causeBit c := rfl
@[simp] theorem takeFault_tx (c : Cause) (s : State) : (takeFault c s).tx = s.tx := rfl
@[simp] theorem takeFault_rx (c : Cause) (s : State) : (takeFault c s).rx = s.rx := rfl
@[simp] theorem takeFault_env (c : Cause) (s : State) :
    (takeFault c s).env = { s.env with respOut := s.env.respOut ++ [faultResp c] } := rfl

@[simp] theorem ackFaults_cfg (s : State) : (ackFaults s).cfg = s.cfg := rfl
@[simp] theorem ackFaults_crcAcc (s : State) : (ackFaults s).crcAcc = s.crcAcc := rfl
@[simp] theorem ackFaults_err (s : State) : (ackFaults s).err = 0 := rfl
@[simp] theorem ackFaults_tx (s : State) : (ackFaults s).tx = s.tx := rfl
@[simp] theorem ackFaults_rx (s : State) : (ackFaults s).rx = s.rx := rfl
@[simp] theorem ackFaults_env (s : State) : (ackFaults s).env = s.env := rfl

@[simp] theorem assertReset_cfg (s : State) : (assertReset s).cfg = s.cfg := rfl
@[simp] theorem assertReset_crcAcc (s : State) : (assertReset s).crcAcc = 0 := rfl
@[simp] theorem assertReset_err (s : State) : (assertReset s).err = 0 := rfl
@[simp] theorem assertReset_tx (s : State) : (assertReset s).tx = TxEngine.reset := rfl
@[simp] theorem assertReset_rx (s : State) : (assertReset s).rx = RxEngine.reset := rfl
@[simp] theorem assertReset_env (s : State) : (assertReset s).env = { s.env with rst := true } := rfl

@[simp] theorem releaseReset_cfg (s : State) : (releaseReset s).cfg = s.cfg := rfl
@[simp] theorem releaseReset_crcAcc (s : State) : (releaseReset s).crcAcc = s.crcAcc := rfl
@[simp] theorem releaseReset_err (s : State) : (releaseReset s).err = s.err := rfl
@[simp] theorem releaseReset_tx (s : State) : (releaseReset s).tx = s.tx := rfl
@[simp] theorem releaseReset_rx (s : State) : (releaseReset s).rx = s.rx := rfl
@[simp] theorem releaseReset_env (s : State) : (releaseReset s).env = { s.env with rst := false } := rfl

@[simp] theorem afterTurn_cfg (ts : List Turn) (s : State) : (afterTurn ts s).cfg = s.cfg := rfl
@[simp] theorem afterTurn_crcAcc (ts : List Turn) (s : State) : (afterTurn ts s).crcAcc = s.crcAcc := rfl
@[simp] theorem afterTurn_err (ts : List Turn) (s : State) : (afterTurn ts s).err = s.err := rfl
@[simp] theorem afterTurn_tx (ts : List Turn) (s : State) : (afterTurn ts s).tx = s.tx := rfl
@[simp] theorem afterTurn_rx (ts : List Turn) (s : State) : (afterTurn ts s).rx = s.rx := rfl
@[simp] theorem afterTurn_env (ts : List Turn) (s : State) :
    (afterTurn ts s).env = { s.env with turns := ts } := rfl

@[simp] theorem rxByte_cfg (b : Byte) (last : Bool) (s : State) : (rxByte b last s).cfg = s.cfg := rfl
@[simp] theorem rxByte_crcAcc (b : Byte) (last : Bool) (s : State) : (rxByte b last s).crcAcc = s.crcAcc := rfl
@[simp] theorem rxByte_err (b : Byte) (last : Bool) (s : State) : (rxByte b last s).err = s.err := rfl
@[simp] theorem rxByte_tx (b : Byte) (last : Bool) (s : State) : (rxByte b last s).tx = s.tx := rfl
@[simp] theorem rxByte_rx (b : Byte) (last : Bool) (s : State) :
    (rxByte b last s).rx = rxStep s.cfg.payloadMax.val b last s.rx := rfl
@[simp] theorem rxByte_env (b : Byte) (last : Bool) (s : State) : (rxByte b last s).env = s.env := rfl

@[simp] theorem holdBytes_cfg (bytes : List StreamByte) (s : State) : (holdBytes bytes s).cfg = s.cfg := rfl
@[simp] theorem holdBytes_crcAcc (bytes : List StreamByte) (s : State) : (holdBytes bytes s).crcAcc = s.crcAcc := rfl
@[simp] theorem holdBytes_err (bytes : List StreamByte) (s : State) : (holdBytes bytes s).err = s.err := rfl
@[simp] theorem holdBytes_tx (bytes : List StreamByte) (s : State) : (holdBytes bytes s).tx = s.tx := rfl
@[simp] theorem holdBytes_rx (bytes : List StreamByte) (s : State) : (holdBytes bytes s).rx = s.rx := rfl
@[simp] theorem holdBytes_env (bytes : List StreamByte) (s : State) :
    (holdBytes bytes s).env = { s.env with rxIn := bytes ++ s.env.rxIn } := rfl

end Sys2Proof.Machine
end

