-- ==== Sys2Proof/Laws/Engines.lean ====
section
/-! SUPPORT. One lemma for each shared operation that says what its next state can be: the decoder of the command port,
the state tests, the commands, the RX stream, a step. -/

namespace Sys2Proof

/-- What the decoder reads off the wire has exactly those bytes (30_encoding.md R90, R108). -/
theorem decodeWire_bytes {bytes : List Byte} {i : Instr} (h : decodeWire bytes = .ok i) :
    (∃ f, i = .frame f ∧ frameBytes f = bytes ∧ f.wellFormed = true) ∨ (i = .autoCenter ∧ autoCenterBytes = bytes) := by
  unfold decodeWire at h
  split at h
  · rename_i h0 h1 ctrl l0 l1 s0 s1 id rest
    split at h
    · cases h
    · split at h
      · cases h
      · rename_i hh
        split at h
        · cases h
        · rename_i hl
          split at h
          · rename_i c0 c1 hd
            obtain rfl := Except.ok.inj h
            rw [not_or, not_not, not_not] at hh
            have hb : frameBytes
                { ctrl := ctrl, len := unle16 l0 l1, seq := unle16 s0 s1, cmdId := id,
                  payload := rest.take (unle16 l0 l1).toNat, crc16 := unle16 c0 c1 } =
                h0 :: h1 :: ctrl :: l0 :: l1 :: s0 :: s1 :: id :: rest := by
              have := List.take_append_drop (unle16 l0 l1).toNat rest
              rw [hd] at this
              simp [frameBytes, le16, hh.1, hh.2, this]
            unfold wireInstr
            split
            · rename_i ha
              refine .inr ⟨rfl, ?_⟩
              rw [← hb, ha]
              decide
            · rename_i ha
              refine .inl ⟨_, rfl, hb, ?_⟩
              simp only [WireFrame.wellFormed, Bool.and_eq_true, decide_eq_true_eq]
              refine ⟨?_, ha⟩
              simp only [List.length_take]
              omega
          · cases h
  · cases h

namespace Machine

@[simp] theorem whenTxIdle_send {s : State} (k : Host.Outcome State Fault Refusal) (h : s.tx.state = .send) :
    whenTxIdle s k = .next (takeFault .badState s) := by simp [whenTxIdle, h]

@[simp] theorem whenTxIdle_idle {s : State} (k : Host.Outcome State Fault Refusal) (h : s.tx.state = .idle) :
    whenTxIdle s k = k := by simp [whenTxIdle, h]

@[simp] theorem gateOpen_iff {s : State} : gateOpen s = true ↔ s.rx.state = .done ∧ s.rx.result = .ok := by
  simp [gateOpen]

@[simp] theorem whenGateOpen_open {s : State} (k : Host.Outcome State Fault Refusal) (h : gateOpen s = true) :
    whenGateOpen s k = k := by simp [whenGateOpen, h]

@[simp] theorem whenGateOpen_closed {s : State} (k : Host.Outcome State Fault Refusal) (h : gateOpen s = false) :
    whenGateOpen s k = .next (takeFault .noData s) := by simp [whenGateOpen, h]

/-- The state a command leaves before its response, when no fault is taken. -/
def CommandEffect : Instr → State → State → Prop
  | .nop, s, u => u = s
  | .crcClear, s, u => u = { s with crcAcc := crcInit }
  | .crcByte b, s, u => u = { s with crcAcc := crcStep s.crcAcc b }
  | .txClear, s, u => s.tx.state = .idle ∧ u = { s with tx := { s.tx with len := 0 } }
  | .txPush b, s, u =>
    s.tx.state = .idle ∧ s.tx.len.toNat < s.cfg.payloadMax.val ∧
      u = { s with tx := { s.tx with buf := Memory.write s.tx.buf s.tx.len.toNat b, len := s.tx.len + 1 } }
  | .txSend b, s, u =>
    s.tx.state = .idle ∧ u = { s with tx := { s.tx with cmd := b, idx := 0, crc := crcInit, state := .send } }
  | .setSeq v, s, u => s.tx.state = .idle ∧ u = { s with tx := { s.tx with seq := v } }
  | .rxRead _, s, u => gateOpen s = true ∧ u = s
  | .rxRelease, s, u => s.rx.state = .done ∧ u = { s with rx := { s.rx with state := .idle, result := .none } }
  | .get _, s, u => u = s
  | .clrErr, s, u => u = { s with err := 0 }
  | .frame _, _, _ => False
  | .autoCenter, _, _ => False

theorem txState_ne_send {t : TxState} : t ≠ .send ↔ t = .idle := by cases t <;> simp

/-- Once for all commands: the next state of a command is that of a fault, or its effect and one ok response
(43_host_access.md R201). -/
theorem exec_command_next {i : Instr} {s t : State} (hi : i.isCommand = true) (h : exec i s = .next t) :
    (∃ c, t = takeFault c s) ∨ (∃ v u, t = respond v u ∧ CommandEffect i s u) := by
  cases i with
  | nop => exact .inr ⟨_, _, (Host.Outcome.next.inj h).symm, rfl⟩
  | crcClear => exact .inr ⟨_, _, (Host.Outcome.next.inj h).symm, rfl⟩
  | crcByte b => exact .inr ⟨_, _, (Host.Outcome.next.inj h).symm, rfl⟩
  | clrErr => exact .inr ⟨_, _, (Host.Outcome.next.inj h).symm, rfl⟩
  | txClear =>
    simp only [exec, execTxClear, whenTxIdle] at h
    split at h <;> obtain rfl := Host.Outcome.next.inj h
    · exact .inl ⟨_, rfl⟩
    · exact .inr ⟨_, _, rfl, txState_ne_send.1 ‹_›, rfl⟩
  | txSend b =>
    simp only [exec, execTxSend, whenTxIdle] at h
    split at h <;> obtain rfl := Host.Outcome.next.inj h
    · exact .inl ⟨_, rfl⟩
    · exact .inr ⟨_, _, rfl, txState_ne_send.1 ‹_›, rfl⟩
  | setSeq v =>
    simp only [exec, execSetSeq, whenTxIdle] at h
    split at h <;> obtain rfl := Host.Outcome.next.inj h
    · exact .inl ⟨_, rfl⟩
    · exact .inr ⟨_, _, rfl, txState_ne_send.1 ‹_›, rfl⟩
  | txPush b =>
    simp only [exec, execTxPush, whenTxIdle] at h
    split at h
    · exact .inl ⟨_, (Host.Outcome.next.inj h).symm⟩
    · split at h
      · exact .inl ⟨_, (Host.Outcome.next.inj h).symm⟩
      · split at h
        · rename_i hw
          obtain ⟨hlt, rfl⟩ := writeCell_ok_iff.1 hw
          exact .inr ⟨_, _, (Host.Outcome.next.inj h).symm, txState_ne_send.1 ‹_›, hlt, rfl⟩
        · cases h
  | rxRead v =>
    simp only [exec, execRxRead, whenGateOpen] at h
    split at h
    · split at h
      · exact .inl ⟨_, (Host.Outcome.next.inj h).symm⟩
      · split at h
        · exact .inr ⟨_, _, (Host.Outcome.next.inj h).symm, ‹_›, rfl⟩
        · cases h
    · exact .inl ⟨_, (Host.Outcome.next.inj h).symm⟩
  | rxRelease =>
    simp only [exec, execRxRelease] at h
    split at h <;> obtain rfl := Host.Outcome.next.inj h
    · exact .inl ⟨_, rfl⟩
    · exact .inr ⟨_, _, rfl, not_not.1 ‹_›, rfl⟩
  | get n =>
    simp only [exec, execGet, whenGateOpen] at h
    split at h
    · exact .inl ⟨_, (Host.Outcome.next.inj h).symm⟩
    · split at h
      · split at h
        · exact .inr ⟨_, _, (Host.Outcome.next.inj h).symm, rfl⟩
        · exact .inl ⟨_, (Host.Outcome.next.inj h).symm⟩
      · exact .inr ⟨_, _, (Host.Outcome.next.inj h).symm, rfl⟩
  | frame f => cases hi
  | autoCenter => cases hi

theorem ite_cases {α : Type} {p : Prop} [Decidable p] {a b c : α} (h : (if p then a else b) = c) :
    (p ∧ a = c) ∨ (¬ p ∧ b = c) := by
  by_cases hp : p
  · exact .inl ⟨hp, by rwa [if_pos hp] at h⟩
  · exact .inr ⟨hp, by rwa [if_neg hp] at h⟩

theorem formatN_ok {w : CmdWord} {i j : Instr} (h : formatN w i = .ok j) : argOf w = 0 ∧ j = i := by
  unfold formatN at h
  split at h
  · exact ⟨‹_›, (Except.ok.inj h).symm⟩
  · cases h

theorem formatB_ok {w : CmdWord} {k : Byte → Except DecodeReject Instr} {j : Instr} (h : formatB w k = .ok j) :
    argHighOf w = 0 ∧ k (imm8Of w) = .ok j := by
  unfold formatB at h
  split at h
  · exact ⟨‹_›, h⟩
  · cases h

theorem decodeGet_ok {b : Byte} {j : Instr} (h : decodeGet b = .ok j) : b.toNat < 8 ∧ j = .get b := by
  unfold decodeGet at h
  split at h
  · exact ⟨‹_›, (Except.ok.inj h).symm⟩
  · cases h

/-- What a word says of the instruction it decodes to: the operation, the reserved bits and the operand
(30_encoding.md R101 to R103). -/
def CommandWord (w : CmdWord) : Instr → Prop
  | .nop => opOf w = 0x00 ∧ argOf w = 0
  | .crcClear => opOf w = 0x01 ∧ argOf w = 0
  | .crcByte b => opOf w = 0x02 ∧ argHighOf w = 0 ∧ b = imm8Of w
  | .txClear => opOf w = 0x10 ∧ argOf w = 0
  | .txPush b => opOf w = 0x11 ∧ argHighOf w = 0 ∧ b = imm8Of w
  | .txSend b => opOf w = 0x12 ∧ argHighOf w = 0 ∧ b = imm8Of w
  | .setSeq v => opOf w = 0x13 ∧ v = argOf w
  | .rxRead v => opOf w = 0x20 ∧ v = argOf w
  | .rxRelease => opOf w = 0x21 ∧ argOf w = 0
  | .get n => opOf w = 0x30 ∧ argHighOf w = 0 ∧ n = imm8Of w ∧ n.toNat < 8
  | .clrErr => opOf w = 0x31 ∧ argOf w = 0
  | .frame _ => False
  | .autoCenter => False

/-- A format N arm of the decoder. -/
theorem CommandWord.ofN {w : CmdWord} {i j : Instr} (h : formatN w i = .ok j) (k : argOf w = 0 → CommandWord w i) :
    CommandWord w j := by
  obtain ⟨h0, rfl⟩ := formatN_ok h
  exact k h0

/-- A format B arm whose operand is taken as it is. -/
theorem CommandWord.ofB {w : CmdWord} {f : Byte → Instr} {j : Instr} (h : formatB w (fun b => .ok (f b)) = .ok j)
    (k : argHighOf w = 0 → CommandWord w (f (imm8Of w))) : CommandWord w j := by
  obtain ⟨h0, hj⟩ := formatB_ok h
  exact Except.ok.inj hj ▸ k h0

/-- A format H arm. -/
theorem CommandWord.ofH {w : CmdWord} {f : Half → Instr} {j : Instr} (h : formatH w f = .ok j)
    (k : CommandWord w (f (argOf w))) : CommandWord w j := Except.ok.inj h ▸ k

/-- The arm of GET. -/
theorem CommandWord.ofGet {w : CmdWord} {j : Instr} (ho : opOf w = 0x30) (h : formatB w decodeGet = .ok j) :
    CommandWord w j := by
  obtain ⟨h0, hj⟩ := formatB_ok h
  obtain ⟨hn, rfl⟩ := decodeGet_ok hj
  exact ⟨ho, h0, rfl, hn⟩

/-- Once for the decoder of the command port. -/
theorem decodeCommand_ok {w : CmdWord} {i : Instr} (h : decodeCommand w = .ok i) : CommandWord w i := by
  unfold decodeCommand at h
  obtain ⟨ho, h⟩ | ⟨-, h⟩ := ite_cases h
  · exact .ofN h fun h0 => ⟨ho, h0⟩
  obtain ⟨ho, h⟩ | ⟨-, h⟩ := ite_cases h
  · exact .ofN h fun h0 => ⟨ho, h0⟩
  obtain ⟨ho, h⟩ | ⟨-, h⟩ := ite_cases h
  · exact .ofB h fun h0 => ⟨ho, h0, rfl⟩
  obtain ⟨ho, h⟩ | ⟨-, h⟩ := ite_cases h
  · exact .ofN h fun h0 => ⟨ho, h0⟩
  obtain ⟨ho, h⟩ | ⟨-, h⟩ := ite_cases h
  · exact .ofB h fun h0 => ⟨ho, h0, rfl⟩
  obtain ⟨ho, h⟩ | ⟨-, h⟩ := ite_cases h
  · exact .ofB h fun h0 => ⟨ho, h0, rfl⟩
  obtain ⟨ho, h⟩ | ⟨-, h⟩ := ite_cases h
  · exact .ofH h ⟨ho, rfl⟩
  obtain ⟨ho, h⟩ | ⟨-, h⟩ := ite_cases h
  · exact .ofH h ⟨ho, rfl⟩
  obtain ⟨ho, h⟩ | ⟨-, h⟩ := ite_cases h
  · exact .ofN h fun h0 => ⟨ho, h0⟩
  obtain ⟨ho, h⟩ | ⟨-, h⟩ := ite_cases h
  · exact .ofGet ho h
  obtain ⟨ho, h⟩ | ⟨-, h⟩ := ite_cases h
  · exact .ofN h fun h0 => ⟨ho, h0⟩
  · cases h

/-- Only commands come off the command port. -/
theorem decodeCommand_isCommand {w : CmdWord} {i : Instr} (h : decodeCommand w = .ok i) : i.isCommand = true := by
  have hw := decodeCommand_ok h
  cases i with
  | frame f => exact hw.elim
  | autoCenter => exact hw.elim
  | _ => rfl

/-- Splitting off a datagram loses no byte. -/
theorem splitDatagram_append (l : List StreamByte) : (splitDatagram l).1 ++ (splitDatagram l).2 = l := by
  induction l with
  | nil => rfl
  | cons c l ih =>
    obtain ⟨b, last⟩ := c
    cases last with
    | false => exact congrArg _ ih
    | true => rfl

/-- While a datagram is held, bytes presented stay with the source. -/
theorem presentBytes_done (bytes : List StreamByte) {s : State} (h : s.rx.state = .done) :
    presentBytes bytes s = holdBytes bytes s := by
  cases bytes with
  | nil => rfl
  | cons c bytes => simp [presentBytes, rxReady, h]

/-- What an accepted byte and a stall do, over a whole list: only the RX engine and the source's queue change. -/
theorem presentBytes_frame (bytes : List StreamByte) (s : State) :
    ∃ r left, presentBytes bytes s = { s with rx := r, env := { s.env with rxIn := left ++ s.env.rxIn } } := by
  induction bytes generalizing s with
  | nil => exact ⟨s.rx, [], rfl⟩
  | cons c bytes ih =>
    obtain ⟨b, last⟩ := c
    unfold presentBytes
    split
    · obtain ⟨r, left, h⟩ := ih (rxByte b last s)
      exact ⟨r, left, h⟩
    · exact ⟨s.rx, (b, last) :: bytes, rfl⟩

/-- A property that one accepted byte and a stall keep is kept by presenting a list. -/
theorem presentBytes_induct {P : State → Prop}
    (byte : ∀ b last s, rxReady s.rx = true → P s → P (rxByte b last s))
    (stall : ∀ bytes s, P s → P (holdBytes bytes s)) (bytes : List StreamByte) {s : State} (hs : P s) :
    P (presentBytes bytes s) := by
  induction bytes generalizing s with
  | nil => exact hs
  | cons c bytes ih =>
    obtain ⟨b, last⟩ := c
    unfold presentBytes
    split
    · exact ih (byte b last s ‹_› hs)
    · exact stall _ s hs

/-- A datagram's turn presents its bytes, whether or not they are a frame. -/
theorem wireDatagram_eq (d : List StreamByte) (s : State) : wireDatagram d s = .next (presentBytes d s) := by
  unfold wireDatagram
  split
  · rename_i i hi
    split
    · rename_i hd
      rcases decodeWire_bytes hi with ⟨f, rfl, hf, -⟩ | ⟨rfl, hf⟩
      · simp only [exec, execFrame, hf, ← hd]
      · simp only [exec, execAutoCenter, hf, ← hd]
    · rfl
  · rfl

/-- Once for all steps: what the next state of a step is (00_scope.md R7). -/
theorem step_next {s t : State} (h : step s = .next t) :
    ∃ u ts, s.env.turns = u :: ts ∧
      ((u = .rstAssert ∧ t = assertReset (afterTurn ts s)) ∨
       (u = .rstRelease ∧ t = releaseReset (afterTurn ts s)) ∨
       (u ≠ .rstAssert ∧ t = afterTurn ts s) ∨
       (u = .host ∧ s.env.rst = false ∧ ∃ w ws, s.env.hostIn = w :: ws ∧
         ((∃ i, decodeCommand w = .ok i ∧ i.isCommand = true ∧
            exec i { s with env := { s.env with turns := ts, hostIn := ws } } = .next t) ∨
          (∃ r, decodeCommand w = .error r ∧
            t = takeFault .illegalCommand { s with env := { s.env with turns := ts, hostIn := ws } }))) ∨
       (u = .source ∧ s.env.rst = false ∧ rxReady s.rx = true ∧ ∃ b last bytes, s.env.rxIn = (b, last) :: bytes ∧
         t = rxByte b last { s with env := { s.env with turns := ts, rxIn := bytes } }) ∨
       (u = .datagram ∧ s.env.rst = false ∧
         t = presentBytes (splitDatagram s.env.rxIn).1
           { s with env := { s.env with turns := ts, rxIn := (splitDatagram s.env.rxIn).2 } }) ∨
       (u = .sink ∧ s.env.rst = false ∧ s.tx.state = .send ∧ ∃ b,
         txByteAt s.cfg.payloadMax.val s.tx = .ok b ∧
         t = { s with
           tx := txAdvance b s.tx
           env := { s.env with turns := ts, txOut := s.env.txOut ++ [(b, txLast s.tx)] } })) := by
  unfold step nextTurn at h
  split at h
  · cases h
  · rename_i u ts hu
    refine ⟨u, ts, hu, ?_⟩
    cases u with
    | rstAssert => exact .inl ⟨rfl, (Host.Outcome.next.inj h).symm⟩
    | rstRelease => exact .inr (.inl ⟨rfl, (Host.Outcome.next.inj h).symm⟩)
    | host =>
      simp only [takeTurn, hostTurn] at h
      split at h
      · exact .inr (.inr (.inl ⟨by simp, (Host.Outcome.next.inj h).symm⟩))
      · rename_i hr
        split at h
        · exact .inr (.inr (.inl ⟨by simp, (Host.Outcome.next.inj h).symm⟩))
        · rename_i w ws hw
          refine .inr (.inr (.inr (.inl ⟨rfl, by simpa using hr, w, ws, hw, ?_⟩)))
          simp only [hostWord, decode] at h
          split at h
          · rename_i i hi
            exact .inl ⟨i, hi, decodeCommand_isCommand hi, h⟩
          · rename_i r hi
            exact .inr ⟨r, hi, (Host.Outcome.next.inj h).symm⟩
    | source =>
      simp only [takeTurn, sourceTurn] at h
      split at h
      · exact .inr (.inr (.inl ⟨by simp, (Host.Outcome.next.inj h).symm⟩))
      · rename_i hr
        split at h
        · exact .inr (.inr (.inl ⟨by simp, (Host.Outcome.next.inj h).symm⟩))
        · rename_i b last bytes hb
          split at h
          · rename_i hd
            exact .inr (.inr (.inr (.inr (.inl
              ⟨rfl, by simpa using hr, hd, b, last, bytes, hb, (Host.Outcome.next.inj h).symm⟩))))
          · exact .inr (.inr (.inl ⟨by simp, (Host.Outcome.next.inj h).symm⟩))
    | datagram =>
      simp only [takeTurn, datagramTurn, wireDatagram_eq] at h
      split at h
      · exact .inr (.inr (.inl ⟨by simp, (Host.Outcome.next.inj h).symm⟩))
      · rename_i hr
        exact .inr (.inr (.inr (.inr (.inr (.inl
          ⟨rfl, by simpa using hr, (Host.Outcome.next.inj h).symm⟩)))))
    | sink =>
      simp only [takeTurn, sinkTurn, txByte] at h
      split at h
      · exact .inr (.inr (.inl ⟨by simp, (Host.Outcome.next.inj h).symm⟩))
      · rename_i hr
        split at h
        · rename_i hs
          split at h
          · rename_i b hb
            exact .inr (.inr (.inr (.inr (.inr (.inr
              ⟨rfl, by simpa using hr, hs, b, hb, (Host.Outcome.next.inj h).symm⟩)))))
          · cases h
        · exact .inr (.inr (.inl ⟨by simp, (Host.Outcome.next.inj h).symm⟩))

/-! ## Runs -/

@[simp] theorem runSteps_zero (s : State) : runSteps 0 s = .next s := rfl

theorem core_run_succ (M : Host.Core) (n : Nat) {s t : M.State} (h : M.step s = .next t) :
    M.run (n + 1) s = M.run n t := by simp only [Host.Core.run, h]

/-- A run goes on from the next state. -/
theorem runSteps_succ (n : Nat) {s t : State} (h : step s = .next t) : runSteps (n + 1) s = runSteps n t :=
  core_run_succ Sys2Proof.core n h

end Machine

end Sys2Proof
end

