-- ==== Sys2Proof/Laws/PerInstr.lean ====
section
/-! SUPPORT. The family `TableRow`: the encoding of every instruction matches its row of spec/opcode_table.json, by the
row's match and mask. -/

namespace Sys2Proof

/-- An encoding matches a row: a command by `w & mask = match` over its 24 bits, a wire row by its first bytes. -/
def Encoded.matchesRow (mask pattern : CmdWord) (first : List Byte) : Encoded → Prop
  | .command w => w &&& mask = pattern
  | .wire bytes => first ≠ [] ∧ first <+: bytes

namespace Laws.TableRow

/-- The row of each instruction, numbers as the table prints them. -/
def Statement : Instr → Prop := fun i =>
  match i with
  | .nop => (encode i).matchesRow 0xFFFFFF 0x000000 []
  | .crcClear => (encode i).matchesRow 0xFFFFFF 0x010000 []
  | .crcByte _ => (encode i).matchesRow 0xFFFF00 0x020000 []
  | .txClear => (encode i).matchesRow 0xFFFFFF 0x100000 []
  | .txPush _ => (encode i).matchesRow 0xFFFF00 0x110000 []
  | .txSend _ => (encode i).matchesRow 0xFFFF00 0x120000 []
  | .setSeq _ => (encode i).matchesRow 0xFF0000 0x130000 []
  | .rxRead _ => (encode i).matchesRow 0xFF0000 0x200000 []
  | .rxRelease => (encode i).matchesRow 0xFFFFFF 0x210000 []
  | .get _ => (encode i).matchesRow 0xFFFF00 0x300000 []
  | .clrErr => (encode i).matchesRow 0xFFFFFF 0x310000 []
  | .frame _ => (encode i).matchesRow 0 0 [0x55, 0x66]
  | .autoCenter => (encode i).matchesRow 0 0 [0x55, 0x66, 0x01, 0x01, 0x00, 0x00, 0x00, 0x08, 0x01, 0xD1, 0x12]

/-- A byte operand does not reach the fixed bits of format B. -/
theorem cmdWord_byteArg_mask (op imm8 : Byte) : cmdWord op (byteArg imm8) &&& 0xFFFF00 = cmdWord op 0 := by
  unfold cmdWord byteArg
  apply BitVec.eq_of_getLsbD_eq
  intro i hi
  rw [BitVec.getLsbD_and]
  erw [BitVec.getLsbD_append, BitVec.getLsbD_append, BitVec.getLsbD_append]
  have hm : ∀ k < 24, (0xFFFF00 : CmdWord).getLsbD k = decide (8 ≤ k) := by decide
  rw [hm i hi]
  by_cases h8 : i < 8
  · simp [h8, show i < 16 by omega, show ¬ 8 ≤ i by omega]
  · by_cases h16 : i < 16
    · simp [h8, h16]
    · simp [h16, show 8 ≤ i by omega]

/-- A halfword operand does not reach the fixed bits of format H. -/
theorem cmdWord_mask (op : Byte) (arg : Half) : cmdWord op arg &&& 0xFF0000 = cmdWord op 0 := by
  unfold cmdWord
  apply BitVec.eq_of_getLsbD_eq
  intro i hi
  rw [BitVec.getLsbD_and]
  erw [BitVec.getLsbD_append, BitVec.getLsbD_append]
  have hm : ∀ k < 24, (0xFF0000 : CmdWord).getLsbD k = decide (16 ≤ k) := by decide
  rw [hm i hi]
  by_cases h16 : i < 16
  · simp [h16, show ¬ 16 ≤ i by omega]
  · simp [h16, show 16 ≤ i by omega]

theorem nop : Statement .nop := by unfold Statement Encoded.matchesRow encode; decide
theorem crcClear : Statement .crcClear := by unfold Statement Encoded.matchesRow encode; decide
theorem crcByte (imm8 : Byte) : Statement (.crcByte imm8) := cmdWord_byteArg_mask 0x02 imm8
theorem txClear : Statement .txClear := by unfold Statement Encoded.matchesRow encode; decide
theorem txPush (imm8 : Byte) : Statement (.txPush imm8) := cmdWord_byteArg_mask 0x11 imm8
theorem txSend (imm8 : Byte) : Statement (.txSend imm8) := cmdWord_byteArg_mask 0x12 imm8
theorem setSeq (imm16 : Half) : Statement (.setSeq imm16) := cmdWord_mask 0x13 imm16
theorem rxRead (imm16 : Half) : Statement (.rxRead imm16) := cmdWord_mask 0x20 imm16
theorem rxRelease : Statement .rxRelease := by unfold Statement Encoded.matchesRow encode; decide
theorem get (imm8 : Byte) : Statement (.get imm8) := cmdWord_byteArg_mask 0x30 imm8
theorem clrErr : Statement .clrErr := by unfold Statement Encoded.matchesRow encode; decide
theorem frame (f : WireFrame) : Statement (.frame f) := ⟨by simp, ⟨_, rfl⟩⟩
theorem autoCenter : Statement .autoCenter := ⟨by simp, ⟨[], rfl⟩⟩

end Laws.TableRow

end Sys2Proof
end

