-- ==== Sys2Proof/Tests/Slice0.lean ====
section
/-! SUPPORT. Small tests, expected results from 95_test_vectors.md and from the encodings of 30_encoding.md, and a
witness for the hypotheses of each statement. -/

namespace Sys2Proof.Tests

open Sys2Proof Sys2Proof.Machine

/-! ## Well-formedness -/

theorem test_wf_get_unassigned : Instr.wellFormed (.get 8) = false := by decide
theorem test_wf_get_last : Instr.wellFormed (.get 7) = true := by decide
theorem test_wf_frame_length :
    Instr.wellFormed (.frame { ctrl := 1, len := 2, seq := 0, cmdId := 8, payload := [1], crc16 := 0 }) = false := by
  decide
theorem test_wf_frame_is_autoCenter : Instr.wellFormed (.frame autoCenterFrame) = false := by decide

/-! ## Decoding of words written out from 30_encoding.md R90, R102, R108 -/

theorem test_decode_nop : decode (.command 0b00000000_00000000_00000000#24) = .ok .nop := by rfl
theorem test_decode_crcClear : decode (.command 0b00000001_00000000_00000000#24) = .ok .crcClear := by rfl
theorem test_decode_crcByte : decode (.command 0b00000010_00000000_01010101#24) = .ok (.crcByte 0x55) := by rfl
theorem test_decode_txClear : decode (.command 0b00010000_00000000_00000000#24) = .ok .txClear := by rfl
theorem test_decode_txPush : decode (.command 0b00010001_00000000_11100111#24) = .ok (.txPush 0xE7) := by rfl
theorem test_decode_txSend : decode (.command 0b00010010_00000000_00001000#24) = .ok (.txSend 0x08) := by rfl
theorem test_decode_setSeq : decode (.command 0b00010011_00010010_00110100#24) = .ok (.setSeq 0x1234) := by rfl
theorem test_decode_rxRead : decode (.command 0b00100000_10000000_00000001#24) = .ok (.rxRead 0x8001) := by rfl
theorem test_decode_rxRelease : decode (.command 0b00100001_00000000_00000000#24) = .ok .rxRelease := by rfl
theorem test_decode_get : decode (.command 0b00110000_00000000_00000101#24) = .ok (.get 5) := by rfl
theorem test_decode_clrErr : decode (.command 0b00110001_00000000_00000000#24) = .ok .clrErr := by rfl
/-- Row N9 of 95_test_vectors.md. -/
theorem test_decode_frame :
    decode (.wire [0x55, 0x66, 0x01, 0x02, 0x00, 0x00, 0x00, 0x07, 0x64, 0x64, 0x3D, 0xCF]) =
      .ok (.frame { ctrl := 0x01, len := 2, seq := 0, cmdId := 0x07, payload := [0x64, 0x64], crc16 := 0xCF3D }) := by
  rfl
/-- The 88 bits of opcode_table.json's AUTO_CENTER, byte 0 in bits 7 to 0. -/
theorem test_decode_autoCenter : decodeTableWord 88 0x12D10108000000010166_55 = some .autoCenter := by decide +kernel
/-- Words H6, H7, H9, H11, H39 of 95_test_vectors.md. -/
theorem test_decode_illegal :
    (decode (.command 0x000001#24) = .error .operandNotZero ∧
      decode (.command 0x400000#24) = .error (.unknownOpcode 0x40) ∧
      decode (.command 0x300008#24) = .error (.registerUnassigned 8)) ∧
    decode (.command 0x110100#24) = .error .highByteNotZero ∧
    decode (.command 0x310001#24) = .error .operandNotZero := ⟨⟨rfl, rfl, rfl⟩, rfl, rfl⟩
/-- Rows V3, V15 and V18 of 95_test_vectors.md are no frames. -/
theorem test_decode_no_frame :
    decode (.wire [0x55, 0x66, 0x01, 0x01, 0x00, 0x00, 0x00, 0x08, 0x01, 0xD1]) = .error .frameLength ∧
    decode (.wire [0x55, 0x66, 0x01, 0x01, 0x00, 0x00, 0x00, 0x08, 0x01, 0xD1, 0x12, 0x00]) = .error .frameLength ∧
    decode (.wire [0x54, 0x66, 0x01, 0x01, 0x00, 0x00, 0x00, 0x08, 0x01, 0xD1, 0x12]) = .error .frameHeader :=
  ⟨rfl, rfl, rfl⟩
/-- Assembler text of 95_test_vectors.md: `GET RX_LEN`, `TX_SEND 08`, and an operand that is missing. -/
theorem test_assemble :
    assemble "GET" (.reg .rxLen) = some 0x300005 ∧ assemble "TX_SEND" (.num 8) = some 0x120008 ∧
    assemble "TX_SEND" .none = none := by decide +kernel

/-! ## Small states -/

/-- Row N1: payload `01` staged, and TX_SEND 08 done. -/
def txStaged : TxEngine :=
  { seq := 0x0000, state := .idle, len := 1, cmd := 0x00, idx := 0, crc := 0x0000, buf := [(0, 0x01)] }
def txSending (idx : Index) (crc : Half) : TxEngine :=
  { txStaged with state := .send, cmd := 0x08, idx := idx, crc := crc }
/-- After the eleven bytes of row V1. -/
def rxHeld : RxEngine :=
  { state := .done, result := .ok, cnt := 11, hdrBad := false, ctrl := 0x01, len := 1, seq := 0x0000, cmd := 0x08,
    crc := 0x12D1, fcs := 0x12D1, buf := [(0, 0x01)] }
/-- After the first five bytes of row V1. -/
def rxPart : RxEngine :=
  { RxEngine.reset with state := .recv, cnt := 5, ctrl := 0x01, len := 1, crc := 0x4C2F }
/-- After row V7. -/
def rxMismatch : RxEngine := { rxHeld with result := .checksumMismatch, crc := 0x02F0, buf := [(0, 0x00)] }

def stateOf (tx : TxEngine) (rx : RxEngine) : State := { State.reset with tx := tx, rx := rx }
def small (pmax : Fin 65536) (s : State) : State := { s with cfg := { payloadMax := pmax } }
def withTurns (ts : List Turn) (words : List CmdWord) (bytes : List StreamByte) (s : State) : State :=
  { s with env := { s.env with turns := ts, hostIn := words, rxIn := bytes } }

/-- What a check says of the state an outcome goes on in. -/
def goesOn (o : Host.Outcome State Fault Refusal) (p : State → Bool) : Bool :=
  match o with
  | .next t => p t
  | .fault _ => false
  | .refused _ => false

theorem goesOn_next {o : Host.Outcome State Fault Refusal} {p : State → Bool} (h : goesOn o p = true) :
    ∃ t, o = .next t ∧ p t = true := by
  cases o with
  | next t => exact ⟨t, rfl, h⟩
  | fault f => cases h
  | refused r => cases h

theorem goesOn_some {o : Host.Outcome State Fault Refusal} (h : goesOn o (fun _ => true) = true) : ∃ t, o = .next t :=
  (goesOn_next h).imp fun _ ht => ht.1

/-- The command word's step answers with the response and leaves `err`. -/
def answers (w : CmdWord) (s : State) (r : RespWord) (err : BitVec 4) (p : State → Bool) : Bool :=
  goesOn (step (placeCommand w s)) fun t => t.env.respOut == s.env.respOut ++ [r] && t.err == err && p t

/-! ## One step each -/

/-- H1. -/
theorem test_nop : answers 0x000000 .reset 0x10000 0 (fun t => t.crcAcc == 0) = true := by decide
/-- K1. -/
theorem test_crcClear : answers 0x010000 { State.reset with crcAcc := 0x31C3 } 0x10000 0 (fun t => t.crcAcc == 0) = true := by
  decide
/-- The single step (FF1C, 01) of section 2.1. -/
theorem test_crcByte :
    answers 0x020001 { State.reset with crcAcc := 0xFF1C } 0x10000 0 (fun t => t.crcAcc == 0x12D1) = true := by
  decide +kernel
/-- P2 step 1, with something staged; H31. -/
theorem test_txClear :
    answers 0x100000 (stateOf txStaged .reset) 0x10000 0 (fun t => t.tx.len == 0 && t.tx.buf == [(0, 0x01)]) = true := by
  decide
theorem test_txClear_busy : answers 0x100000 (stateOf (txSending 0 0) .reset) 0x00002 2 (fun t => t.tx.len == 1) = true := by
  decide
/-- P5 step 2; P5 step 3 (H36). -/
theorem test_txPush :
    answers 0x1100E7 (small 2 (stateOf txStaged .reset)) 0x10000 0
      (fun t => t.tx.len == 2 && t.tx.buf == [(0, 0x01), (1, 0xE7)]) = true := by decide
theorem test_txPush_full :
    answers 0x110000 (small 1 (stateOf txStaged .reset)) 0x00003 4 (fun t => t.tx == txStaged) = true := by decide
/-- P2 step 3; H33. -/
theorem test_txSend :
    answers 0x120008 (stateOf txStaged .reset) 0x10000 0 (fun t => t.tx == txSending 0 0) = true := by decide
theorem test_txSend_busy :
    answers 0x120009 (stateOf (txSending 0 0) .reset) 0x00002 2 (fun t => t.tx == txSending 0 0) = true := by decide
/-- H12; H32. -/
theorem test_setSeq : answers 0x13FFFF .reset 0x10000 0 (fun t => t.tx.seq == 0xFFFF) = true := by decide
theorem test_setSeq_busy :
    answers 0x131234 (stateOf (txSending 0 0) .reset) 0x00002 2 (fun t => t.tx.seq == 0) = true := by decide
/-- H21; H22. -/
theorem test_rxRead : answers 0x200000 (stateOf .reset rxHeld) 0x10001 0 (fun t => t.rx == rxHeld) = true := by decide
theorem test_rxRead_past : answers 0x200001 (stateOf .reset rxHeld) 0x00004 8 (fun t => t.rx == rxHeld) = true := by decide
/-- H27; H14. -/
theorem test_rxRelease :
    answers 0x210000 (stateOf .reset rxMismatch) 0x10000 0 (fun t => t.rx.state == .idle && t.rx.result == .none) = true := by
  decide
theorem test_rxRelease_part : answers 0x210000 (stateOf .reset rxPart) 0x00002 2 (fun t => t.rx == rxPart) = true := by
  decide
/-- H40; H25. -/
theorem test_get_status :
    answers 0x300000 { stateOf (txSending 0 0) .reset with err := 7 } 0x10710 7 (fun _ => true) = true := by decide
theorem test_get_gated : answers 0x300004 (stateOf .reset rxMismatch) 0x00004 8 (fun t => t.rx == rxMismatch) = true := by
  decide
/-- H38; H39. -/
theorem test_clrErr : answers 0x310000 { State.reset with err := 10 } 0x10000 0 (fun _ => true) = true := by decide
theorem test_clrErr_operand : answers 0x310001 { State.reset with err := 10 } 0x00001 11 (fun _ => true) = true := by
  decide
/-- V29 and V28, with two cells. -/
theorem test_frame :
    goesOn (exec (.frame { ctrl := 1, len := 2, seq := 0, cmdId := 7, payload := [1, 2], crc16 := 0x3782 }) (small 2 .reset))
      (fun t => t.rx.result == .ok && t.rx.buf == [(0, 0x01), (1, 0x02)]) = true := by decide +kernel
theorem test_frame_too_long :
    goesOn (exec (.frame { ctrl := 1, len := 3, seq := 0, cmdId := 7, payload := [1, 2, 3], crc16 := 0xB304 })
        (small 2 .reset))
      (fun t => t.rx.result == .malformed && t.rx.buf == [(0, 0x01), (1, 0x02)]) = true := by decide +kernel
/-- V1, by one step from the reset state. -/
theorem test_autoCenter :
    goesOn (step (State.reset.withFetchWord 88 0x12D10108000000010166_55)) (fun t => t.rx == rxHeld) = true := by
  decide +kernel
/-- Line 9 of the engine trace of V1, by one RxByte step. -/
theorem test_rxByte_payload :
    rxStep 65535 0x01 false { rxHeld with state := .recv, result := .none, cnt := 8, crc := 0xFF1C, fcs := 0, buf := [] } =
      { rxHeld with state := .recv, result := .none, cnt := 9, fcs := 0 } := by decide +kernel
/-- V22: a datagram of one byte. -/
theorem test_rxByte_single :
    rxStep 65535 0x55 true RxEngine.reset =
      { RxEngine.reset with state := .done, result := .malformed, cnt := 1, crc := 0x0A50 } := by decide +kernel
/-- P2 step 13: the low byte of the checksum, not fed. -/
theorem test_txByte :
    goesOn (step (withTurns [.sink] [] [] (stateOf (txSending 9 0x12D1) .reset)))
      (fun t => t.tx == txSending 10 0x12D1 && t.env.txOut == [(0xD1, false)]) = true := by decide
/-- P2 step 14. -/
theorem test_txByte_last :
    goesOn (step (withTurns [.sink] [] [] (stateOf (txSending 10 0x12D1) .reset)))
      (fun t => t.tx.state == .idle && t.tx.idx == 0 && t.env.txOut == [(0x12, true)]) = true := by decide
/-- K13 and K16. -/
theorem test_checksum : checksum [0xFF, 0xFF] = 0x1D0F ∧ checksum [0x10, 0x21] = 0x3730 := by decide +kernel
/-- V17, V12 and V21. -/
theorem test_decodeFrame :
    (decodeFrame [0x55, 0x66, 0x01, 0x05, 0x00, 0x00, 0x00, 0x08, 0x01, 0x70, 0x14] = .malformed ∧
    decodeFrame [0x55, 0x66, 0x02, 0x01, 0x00, 0x00, 0x00, 0x08, 0x01, 0x53, 0xCA] = .ok 0x08 [0x01] 0x02 0x0000 1) ∧
    decodeFrame [0x54, 0x66, 0x01, 0x01, 0x00, 0x00, 0x00, 0x08, 0x01, 0x00, 0x00] = .malformed := by decide +kernel

/-! ## Witnesses: states and operands that meet the hypotheses of the statements together -/

/-- Source, host and sink all have something to do; nothing is asserted. -/
def busy : State := withTurns [.host] [0x020001#24] [(0x55, false)] (stateOf (txSending 9 0x12D1) rxHeld)

theorem blockInv_busy : BlockInv busy := by unfold BlockInv TxInv RxInv; decide
theorem blockInv_small : BlockInv (small 1 (stateOf txStaged rxHeld)) := by unfold BlockInv TxInv RxInv; decide
theorem blockInv_part : BlockInv (small 1 (stateOf txStaged rxPart)) := by unfold BlockInv TxInv RxInv; decide
theorem blockInv_mismatch : BlockInv (small 1 (stateOf (txSending 10 0x12D1) rxMismatch)) := by
  unfold BlockInv TxInv RxInv; decide

theorem test_witness_DecodeOfEncode :
    Instr.wellFormed (.get 7) = true ∧ Instr.wellFormed .autoCenter = true ∧
    Instr.wellFormed (.frame { ctrl := 1, len := 0, seq := 0, cmdId := 1, payload := [], crc16 := 0xC464 }) = true := by
  decide
theorem test_witness_EncodeOfDecode :
    decode (.command 0x3000FF#24) = .error (.registerUnassigned 0xFF) ∧ decode (.command 0x300007#24) = .ok (.get 7) :=
  ⟨rfl, rfl⟩
/-- One word for each disjunct of `illegal`, and legal words beside them. -/
theorem test_witness_IllegalWordsFault :
    (0x03#8 ∉ [0x00#8, 0x01#8, 0x02#8, 0x10#8, 0x11#8, 0x12#8, 0x13#8, 0x20#8, 0x21#8, 0x30#8, 0x31#8]) ∧
    (0x310001#24).extractLsb' 0 16 ≠ 0 ∧ (0x3001FF#24).extractLsb' 8 8 ≠ 0 ∧
    8 ≤ ((0x300008#24).extractLsb' 0 8).toNat ∧ ¬ 8 ≤ ((0x300007#24).extractLsb' 0 8).toNat := by decide
theorem test_witness_OpcodePatternsDisjoint :
    (⟨"GET", 0x30, maskB⟩ : HostRow) ∈ hostRows ∧ HostRow.covers ⟨"GET", 0x30, maskB⟩ 0x300008#24 = true ∧
    decode (.command 0x300007#24) = .ok (.get 7) := ⟨by decide, by decide, rfl⟩
theorem test_witness_ChecksumIsLinear : ([0x55, 0x66] : List Byte).length = ([0xFF, 0x00] : List Byte).length := by decide
theorem test_witness_ChecksumDetectsOneBit : 1 < ([0x55, 0x66] : List Byte).length := by decide
theorem test_witness_ChecksumDetectsSwap : (0x01 : Byte) ≠ 0x02 := by decide
/-- A command that passes every test and one that does not, in states with the invariant. -/
theorem test_witness_FaultPriority :
    BlockInv (small 1 (stateOf txStaged rxHeld)) ∧
    faultOf (.rxRead 0) (small 1 (stateOf txStaged rxHeld)) = none ∧
    faultOf (.rxRead 1) (small 1 (stateOf txStaged rxHeld)) = some .noData ∧
    faultOf (.txPush 0) (small 1 (stateOf txStaged rxHeld)) = some .overflow :=
  ⟨blockInv_small, by decide, by decide, by decide⟩
theorem test_witness_EveryWordAnswered :
    let s := withTurns [.host, .host, .sink] [0x000000, 0xFFFFFF] [] (small 1 (stateOf txStaged rxHeld))
    BlockInv s ∧ s.env.rst = false ∧ s.env.turns = List.replicate [0x000000#24, 0xFFFFFF#24].length .host ++ [.sink] ∧
    s.env.hostIn = [0x000000, 0xFFFFFF] ++ [] := ⟨blockInv_small, rfl, rfl, rfl⟩
theorem test_witness_command_words : (0x0001 : Half) ≠ 0 ∧ (0x01 : Byte) ≠ 0 := by decide
/-- TX_CLEAR, TX_SEND and SET_SEQ in SEND and in IDLE. -/
theorem test_witness_Staging : (stateOf (txSending 0 0) .reset).tx.state = .send ∧ (stateOf txStaged .reset).tx.state = .idle :=
  ⟨rfl, rfl⟩
/-- A full buffer, and one with one cell left. -/
theorem test_witness_TxPushAppends :
    let full := small 1 (stateOf txStaged .reset)
    let room := small 2 (stateOf txStaged .reset)
    full.tx.state = .idle ∧ full.tx.len.toNat = full.cfg.payloadMax.val ∧
    room.tx.state = .idle ∧ room.tx.len.toNat < room.cfg.payloadMax.val := by decide
/-- The gate open with the last index there is and the first there is not; the gate closed by state and by verdict. -/
theorem test_witness_RxReadLoads :
    let held := small 1 (stateOf txStaged rxHeld)
    BlockInv held ∧ held.rx.state = .done ∧ held.rx.result = .ok ∧
    (0 : Half).toNat < held.rx.len.toNat ∧ held.rx.len.toNat ≤ (1 : Half).toNat ∧
    BlockInv (small 1 (stateOf txStaged rxPart)) ∧ rxPart.state ≠ .done ∧
    BlockInv (small 1 (stateOf (txSending 10 0x12D1) rxMismatch)) ∧ rxMismatch.result ≠ .ok :=
  ⟨blockInv_small, rfl, rfl, by decide, by decide, blockInv_part, by decide, blockInv_mismatch, by decide⟩
theorem test_witness_RxReleaseDiscards :
    (stateOf .reset rxPart).rx.state ≠ .done ∧ (stateOf .reset rxMismatch).rx.state = .done := by decide
theorem test_witness_GetReadsRegister :
    rxMismatch.result ≠ .ok ∧ 4 ≤ (4 : Byte).toNat ∧ (7 : Byte).toNat < 8 ∧ 8 ≤ (8 : Byte).toNat ∧
    rxHeld.state = .done ∧ rxHeld.result = .ok := by decide
theorem test_witness_ClosedGateHidesDatagram :
    gateOpen (stateOf txStaged rxMismatch) = false ∧ Instr.isCommand (.get 0) = true ∧
    ∃ t, exec (.get 0) (stateOf txStaged rxMismatch) = .next t := ⟨by decide, rfl, _, rfl⟩
theorem test_witness_FrameInFlightImmutable :
    busy.tx.state = .send ∧ busy.env.turns.head? ≠ some .rstAssert ∧ ∃ t, step busy = .next t := ⟨rfl, by decide, _, rfl⟩

/-- Every index of the table, 10 being `9 + tx_len`. -/
theorem test_witness_TxByteTable :
    (TxInv 1 (txSending 0 0) ∧ TxInv 1 (txSending 7 0) ∧ TxInv 1 (txSending 8 0) ∧ TxInv 1 (txSending 9 0) ∧
      TxInv 1 (txSending 10 0)) ∧
    8 ≤ (8 : Index).toNat ∧ (8 : Index).toNat < 8 + txStaged.len.toNat ∧ (9 : Index).toNat = 8 + txStaged.len.toNat ∧
    (10 : Index).toNat = 9 + txStaged.len.toNat := by unfold TxInv; decide
theorem test_witness_TxByteStep :
    let s := withTurns [.sink] [] [] busy
    s.env.rst = false ∧ s.env.turns = .sink :: [] ∧ s.tx.state = .send ∧
    txByteAt s.cfg.payloadMax.val s.tx = .ok 0xD1 ∧ (stateOf txStaged .reset).tx.state = .idle :=
  ⟨rfl, rfl, rfl, rfl, rfl⟩
theorem test_witness_TxLaw :
    let s := withTurns (.host :: List.replicate 11 .sink) [0x120008] [] (small 1 (stateOf txStaged .reset))
    s.tx.state = .idle ∧ s.tx.len.toNat ≤ s.cfg.payloadMax.val ∧
    Memory.firstN s.tx.buf s.tx.len.toNat = some [0x01] ∧ s.env.rst = false ∧
    s.env.turns = .host :: List.replicate (10 + s.tx.len.toNat) .sink ++ [] ∧
    s.env.hostIn = (0x1200#16 ++ (0x08 : Byte)) :: [] := ⟨rfl, by decide, rfl, rfl, rfl, rfl⟩
/-- Nothing taken yet, and one byte left. -/
theorem test_witness_EmittedBytesAreTheFrame :
    let s := withTurns [.sink] [] [] (stateOf (txSending 0 0) .reset)
    let l := { withTurns [.sink] [] [] (small 1 (stateOf (txSending 10 0x12D1) .reset)) with
      env := { Env.reset with
        turns := [.sink], txOut := (markLast (encodeFrame 0x08 0x0000 [0x01])).take 10 } }
    (BlockInv s ∧ TxEmitted s ∧ ∃ t, step s = .next t) ∧
    BlockInv l ∧ TxEmitted l ∧ l.env.rst = false ∧ l.env.turns = .sink :: [] ∧ l.tx.state = .send ∧
    l.tx.idx.toNat = 9 + l.tx.len.toNat ∧ ∃ t, step l = .next t :=
  ⟨⟨by unfold BlockInv TxInv RxInv; decide, fun _ => ⟨[0x01], [], rfl, by decide +kernel, rfl⟩, _, rfl⟩,
    by unfold BlockInv TxInv RxInv; decide, fun _ => ⟨[0x01], [], rfl, by decide +kernel, by decide +kernel⟩, rfl, rfl,
    rfl, by decide, _, rfl⟩
theorem test_witness_EncodedFramesValid :
    ([0x01] : List Byte).length ≤ 65535 ∧ (List.replicate 65535 (0x00 : Byte)).length ≤ 65535 :=
  ⟨by decide, by rw [List.length_replicate]⟩
theorem test_witness_valid_frame :
    validFrame autoCenterBytes = true ∧ 10 < autoCenterBytes.length ∧ ([0x00] : List Byte) ≠ [] ∧
    decodeFrame autoCenterBytes = .ok 0x08 [0x01] 0x01 0x0000 1 := by decide +kernel
theorem test_witness_RxByteEnabled :
    let s := withTurns [.source] [] [(0x66, false)] (stateOf .reset rxPart)
    s.env.rst = false ∧ s.env.turns = .source :: [] ∧ s.env.rxIn = (0x66, false) :: [] ∧ s.rx.state ≠ .done ∧
    rxHeld.state = .done := ⟨rfl, rfl, rfl, by decide, rfl⟩
/-- A payload byte that has a cell, one that has none, and the two bytes of the trailing field. -/
theorem test_witness_RxByteByIndex :
    rxPart.state = .recv ∧
    (8 ≤ (8 : Index).toNat ∧ (8 : Index).toNat < 8 + rxPart.len.toNat ∧ (8 : Index).toNat - 8 < 1 ∧
      ¬ (8 : Index).toNat - 8 < 0) ∧
    (9 : Index).toNat = 8 + rxPart.len.toNat ∧ (10 : Index).toNat = 9 + rxPart.len.toNat := by decide
theorem test_witness_RxFirstAndLastByte : RxEngine.reset.state = .idle ∧ rxPart.state ≠ .done := by decide
theorem test_witness_RxLaw :
    let s := withTurns (List.replicate 11 .source) [] (markLast autoCenterBytes) .reset
    s.rx.state = .idle ∧ autoCenterBytes ≠ [] ∧ s.env.rst = false ∧
    s.env.turns = List.replicate autoCenterBytes.length .source ++ [] ∧ s.env.rxIn = markLast autoCenterBytes ++ [] ∧
    s.cfg.payloadMax.val = 65535 ∧ decodeFrame autoCenterBytes = .ok 0x08 [0x01] 0x01 0x0000 1 ∧
    (1 : Half).toNat ≤ s.cfg.payloadMax.val :=
  ⟨rfl, by decide, rfl, rfl, rfl, rfl, by decide +kernel, by decide⟩
/-- A byte taken from IDLE, one taken behind the first five of V1, a last one, and a step that takes none; in the two
states that hold bytes they are named. -/
theorem test_witness_RxRegistersRepresentDatagram :
    let first := withTurns [.source] [] [(0x55, false)] .reset
    let next := withTurns [.source] [] [(0x00, false)] (stateOf .reset rxPart)
    let last := withTurns [.datagram] [] [(0x00, true)] (stateOf .reset rxPart)
    (takenBytes .source first = [(0x55, false)] ∧ first.rx.state = .idle ∧ ∃ t, step first = .next t) ∧
    (takenBytes .source next = [(0x00, false)] ∧ next.rx.state = .recv ∧ ∃ t, step next = .next t) ∧
    (takenBytes .datagram last = [(0x00, true)] ∧ ∃ t, step last = .next t) ∧
    (takenBytes .host busy = [] ∧ busy.env.turns = .host :: [] ∧ ∃ t, step busy = .next t) ∧
    RxHolds 65535 [0x55, 0x66, 0x01, 0x01, 0x00] rxPart ∧ RxHolds 65535 autoCenterBytes rxHeld ∧ RxRepresents busy := by
  have part : RxHolds 65535 [0x55, 0x66, 0x01, 0x01, 0x00] rxPart := by unfold RxHolds; decide +kernel
  have held : RxHolds 65535 autoCenterBytes rxHeld := by unfold RxHolds; decide +kernel
  exact ⟨⟨by decide, rfl, goesOn_some (by decide +kernel)⟩, ⟨by decide, rfl, goesOn_some (by decide +kernel)⟩,
    ⟨by decide, goesOn_some (by decide +kernel)⟩, ⟨by decide, rfl, goesOn_some (by decide +kernel)⟩, part, held,
    fun _ => ⟨autoCenterBytes, by decide, held, fun _ => by decide +kernel⟩⟩

/-- Each transition: IDLE to RECV, IDLE to DONE, RECV to DONE, the release, reset. -/
theorem test_witness_RxTransitions :
    let moves (s : State) (x : RxState) := goesOn (step s) fun t => t.rx.state != s.rx.state && t.rx.state == x
    moves (withTurns [.source] [] [(0x55, false)] .reset) .recv = true ∧
    moves (withTurns [.source] [] [(0x55, true)] .reset) .done = true ∧
    moves (withTurns [.datagram] [] [(0x00, true)] (stateOf .reset rxPart)) .done = true ∧
    moves (withTurns [.host] [0x210000] [] (stateOf .reset rxHeld)) .idle = true ∧
    moves (withTurns [.rstAssert] [] [] (stateOf .reset rxHeld)) .idle = true := by decide +kernel
/-- A frame that fits, one that does not, and the states of the three clauses. -/
theorem test_witness_FrameArrives :
    WireFrame.wellFormed { ctrl := 1, len := 1, seq := 0, cmdId := 7, payload := [2], crc16 := 0 } = true ∧
    (1 : Half).toNat ≤ (small 1 .reset).cfg.payloadMax.val ∧ (small 0 .reset).cfg.payloadMax.val < (1 : Half).toNat ∧
    State.reset.rx.state = .idle ∧ rxPart.state = .recv ∧ rxHeld.state = .done := by decide
theorem test_witness_AutoCenterArrives :
    (small 1 .reset).rx.state = .idle ∧ (small 1 .reset).cfg.payloadMax.val ≠ 0 ∧
    (small 0 .reset).cfg.payloadMax.val = 0 ∧ rxPart.state = .recv ∧ rxHeld.state = .done := by decide
theorem test_witness_StepRunsDecoded :
    decodeTableWord 24 0x300007 = some (.get 7) ∧ busy.env.rst = false ∧ busy.env.turns = .host :: [] ∧
    busy.env.hostIn = 0x020001 :: [] ∧ decode (.command 0x020001) = .ok (.crcByte 1) := ⟨rfl, rfl, rfl, rfl, rfl⟩
/-- An ended datagram with another behind it, and one not ended yet. -/
theorem test_witness_DatagramTurnIsByteTurns :
    ([0x55, 0x66] : List Byte) ≠ [] ∧
    splitDatagram [(0x55, false), (0x66, true), (0x55, true)] = ([(0x55, false), (0x66, true)], [(0x55, true)]) ∧
    ∀ c ∈ ([(0x55, false), (0x66, false)] : List StreamByte), c.2 = false := by decide +kernel
/-- A datagram not ended yet, in the middle of one: both ways end in RECV with the same count. -/
theorem test_datagram_not_ended :
    let s := withTurns [] [] [(0x00, false), (0x00, false)] (stateOf .reset rxPart)
    goesOn (step (afterTurn [.datagram] s)) (fun t => t.rx.state == .recv && t.rx.cnt == 7) = true ∧
    goesOn (runSteps 2 (afterTurn [.source, .source] s)) (fun t => t.rx.state == .recv && t.rx.cnt == 7) = true := by
  decide +kernel
theorem test_witness_DisabledTurnsPass :
    State.reset.env.hostIn = [] ∧ State.reset.env.rxIn = [] ∧ State.reset.tx.state = .idle ∧ busy.rx.state = .done :=
  ⟨rfl, rfl, rfl, rfl⟩
theorem test_witness_ResetAsserted :
    (assertReset busy).env.rst = true ∧ Turn.sink ∈ [Turn.host, .source, .datagram, .sink] := ⟨rfl, by decide⟩
theorem test_witness_InvariantKept : BlockInv busy ∧ busy.env.turns ≠ [] ∧ ∃ t, step busy = .next t :=
  ⟨blockInv_busy, by decide, _, rfl⟩
/-- CRC_BYTE changes the accumulator; so does reset. -/
theorem test_witness_CrcAccWriters :
    busy.env.turns = .host :: [] ∧ goesOn (step busy) (fun t => t.crcAcc != busy.crcAcc) = true ∧
    goesOn (step (withTurns [.rstAssert] [] [] { busy with crcAcc := 1 })) (fun t => t.crcAcc != 1) = true := by
  decide +kernel
theorem test_witness_Crc16Pseudo :
    let s := withTurns (List.replicate 3 .host) (commandWords (crc16Commands [0x41])) [] busy
    s.env.rst = false ∧ s.env.turns = List.replicate (([0x41] : List Byte).length + 2) .host ++ [] ∧
    s.env.hostIn = commandWords (crc16Commands [0x41]) ++ [] := ⟨rfl, rfl, rfl⟩
/-- As many payload bytes as the buffer has cells. -/
theorem test_witness_EncodePseudoStages :
    let s := withTurns (List.replicate 3 .host) (commandWords (encodeCommands 0x08 [0x01])) [] (small 1 (stateOf txStaged .reset))
    s.tx.state = .idle ∧ ([0x01] : List Byte).length ≤ s.cfg.payloadMax.val ∧ s.env.rst = false ∧
    s.env.turns = List.replicate (([0x01] : List Byte).length + 2) .host ++ [] ∧
    s.env.hostIn = commandWords (encodeCommands 0x08 [0x01]) ++ [] := ⟨rfl, by decide, rfl, rfl, rfl⟩
/-- A step for every kind of turn, with the two hypotheses of ErrIsSticky and EnginesIndependent. -/
theorem test_witness_steps :
    (∀ u ∈ [Turn.host, .source, .datagram, .sink, .rstAssert, .rstRelease],
      goesOn (step (withTurns [u] [0x020001] [(0x55, false)] busy)) (fun _ => true) = true) ∧
    goesOn (step (withTurns [.host] [0x110001] [] busy)) (fun t => t.err == 2) = true ∧
    goesOn (step (withTurns [.host] [0x310000] [] { busy with err := 3 })) (fun t => t.err == 0) = true := by
  decide +kernel
theorem test_witness_OutputPorts :
    BlockInv busy ∧ busy.tx.state = .send ∧ BlockInv (small 1 (stateOf txStaged rxHeld)) ∧ txStaged.state = .idle :=
  ⟨blockInv_busy, rfl, blockInv_small, rfl⟩

end Sys2Proof.Tests
end

section
/-! Turns of 00_scope.md R7 whose step is not enabled: one rule for each agent's turn, then the statement about steps. -/

namespace Sys2Proof.Machine

/-- With no turn left the run is over (log 3). -/
theorem step_afterTurn_nil (s : State) : step (afterTurn [] s) = .fault .noTurn := rfl

/-- The turn at the head of the list is the one taken, on the state it has been taken off. -/
theorem step_afterTurn_cons (u : Turn) (ts : List Turn) (s : State) :
    step (afterTurn (u :: ts) s) = takeTurn u (afterTurn ts s) := rfl

/-- A host that presents no word does nothing. -/
theorem hostTurn_of_hostIn_nil {s : State} (h : s.env.hostIn = []) : hostTurn s = .next s := by
  simp only [hostTurn, h]

/-- A source that holds no byte presents none. -/
theorem sourceTurn_of_rxIn_nil {s : State} (h : s.env.rxIn = []) : sourceTurn s = .next s := by
  simp only [sourceTurn, h]

/-- While a datagram is held the source stalls (42_decode_validate.md R172), whatever it has to present. -/
theorem sourceTurn_of_done {s : State} (h : s.rx.state = .done) : sourceTurn s = .next s := by
  unfold sourceTurn
  split
  · rfl
  · simp [rxReady, h]

/-- Outside SEND the sink takes nothing (41_encode.md R157, R159). -/
theorem sinkTurn_of_idle {s : State} (h : s.tx.state = .idle) : sinkTurn s = .next s := by
  simp [sinkTurn, h]

/-- While a datagram is held the next one is split off and put back whole. -/
theorem datagramTurn_of_done {s : State} (h : s.rx.state = .done) : datagramTurn s = .next s := by
  rw [datagramTurn, wireDatagram_eq, presentBytes_done]
  · simp only [holdBytes, splitDatagram_append]
  · exact h

/-- Settles O48: each agent's turn leaves the state it is given by its own rule above, with `rst` asserted or not. -/
theorem disabledTurnsPass : Obligations.DisabledTurnsPass := by
  intro s ts
  refine ⟨step_afterTurn_nil s, fun hword => ?host, fun hsource => ?source, fun hidle => ?sink, fun hdone => ?datagram⟩
  case host =>
    rw [step_afterTurn_cons, takeTurn, hostTurn_of_hostIn_nil (s := afterTurn ts s) hword, ite_self]
  case source =>
    have hpass : sourceTurn (afterTurn ts s) = .next (afterTurn ts s) :=
      hsource.elim (sourceTurn_of_rxIn_nil (s := afterTurn ts s)) (sourceTurn_of_done (s := afterTurn ts s))
    rw [step_afterTurn_cons, takeTurn, hpass, ite_self]
  case sink =>
    rw [step_afterTurn_cons, takeTurn, sinkTurn_of_idle (s := afterTurn ts s) hidle, ite_self]
  case datagram =>
    rw [step_afterTurn_cons, takeTurn, datagramTurn_of_done (s := afterTurn ts s) hdone, ite_self]

end Sys2Proof.Machine
end

section
/-! What a step can be, said once for the statements about the state: the RX engine's byte, a stretch of bytes the
source presents, a command's effect on each register, and the cases of a step (00_scope.md R7). -/

namespace Sys2Proof.Machine

/-! ## One accepted byte -/

@[simp] theorem rxTake_state (size : Nat) (b : Byte) (r : RxEngine) : (rxTake size b r).state = r.state := rfl
@[simp] theorem rxTake_result (size : Nat) (b : Byte) (r : RxEngine) : (rxTake size b r).result = r.result := rfl

theorem rxBegin_of_idle {r : RxEngine} (h : r.state = .idle) : rxBegin r = rxInit r := if_pos h

theorem rxBegin_of_recv {r : RxEngine} (h : r.state = .recv) : rxBegin r = r := by simp [rxBegin, h]

theorem rxBegin_state {r : RxEngine} (h : r.state ≠ .done) : (rxBegin r).state = .recv := by
  cases hr : r.state with
  | idle => rw [rxBegin_of_idle hr]; rfl
  | recv => rw [rxBegin_of_recv hr, hr]
  | done => exact absurd hr h

theorem rxStep_true (size : Nat) (b : Byte) (r : RxEngine) :
    rxStep size b true r =
      { rxTake size b (rxBegin r) with
        result := rxVerdict size (rxTake size b (rxBegin r)), state := .done } := rfl

theorem rxStep_state (size : Nat) (b : Byte) (last : Bool) {r : RxEngine} (h : r.state ≠ .done) :
    (rxStep size b last r).state = if last then .done else .recv := by
  cases last with
  | false => exact rxBegin_state h
  | true => rfl

/-! ## A stretch of bytes of one datagram -/

/-- No byte but the final one ends a datagram. -/
def InOneDatagram (bytes : List StreamByte) : Prop := ∀ c ∈ bytes.dropLast, c.2 = false

theorem InOneDatagram.of_cons {c : StreamByte} {bytes : List StreamByte} (hne : bytes ≠ [])
    (h : InOneDatagram (c :: bytes)) : c.2 = false ∧ InOneDatagram bytes := by
  rw [InOneDatagram, List.dropLast_cons_of_ne_nil hne] at h
  exact ⟨h c List.mem_cons_self, fun d hd => h d (List.mem_cons_of_mem c hd)⟩

theorem InOneDatagram.cons {b : Byte} {bytes : List StreamByte} (h : InOneDatagram bytes) :
    InOneDatagram ((b, false) :: bytes) := by
  by_cases hne : bytes = []
  · simp [InOneDatagram, hne]
  · rw [InOneDatagram, List.dropLast_cons_of_ne_nil hne]
    exact List.forall_mem_cons.2 ⟨rfl, h⟩

theorem inOneDatagram_splitDatagram (l : List StreamByte) : InOneDatagram (splitDatagram l).1 := by
  induction l with
  | nil => exact List.forall_mem_nil _
  | cons c l ih =>
    obtain ⟨b, last⟩ := c
    cases last with
    | true => exact List.forall_mem_nil _
    | false => exact ih.cons

theorem inOneDatagram_take_one (l : List StreamByte) : InOneDatagram (l.take 1) := by
  cases l <;> exact List.forall_mem_nil _

theorem inOneDatagram_takenBytes (u : Turn) (s : State) : InOneDatagram (takenBytes u s) := by
  unfold takenBytes
  split
  · exact List.forall_mem_nil _
  · split
    · exact inOneDatagram_take_one _
    · split
      · exact inOneDatagram_splitDatagram _
      · exact List.forall_mem_nil _

@[simp] theorem rxSteps_nil (size : Nat) (r : RxEngine) : rxSteps size [] r = r := rfl

theorem rxSteps_cons (size : Nat) (c : StreamByte) (bytes : List StreamByte) (r : RxEngine) :
    rxSteps size (c :: bytes) r = rxSteps size bytes (rxStep size c.1 c.2 r) := rfl

/-- A property every accepted byte keeps is kept by a stretch of one datagram. -/
theorem rxSteps_induct {P : RxEngine → Prop} {size : Nat}
    (byte : ∀ b last r, r.state ≠ .done → P r → P (rxStep size b last r)) {bytes : List StreamByte} {r : RxEngine}
    (hone : InOneDatagram bytes) (hr : bytes ≠ [] → r.state ≠ .done) (hP : P r) : P (rxSteps size bytes r) := by
  induction bytes generalizing r with
  | nil => exact hP
  | cons c bytes ih =>
    replace hr := hr (List.cons_ne_nil c bytes)
    by_cases hne : bytes = []
    · rw [hne]
      exact byte c.1 c.2 r hr hP
    · obtain ⟨hc, hrest⟩ := hone.of_cons hne
      rw [rxSteps_cons]
      exact ih hrest (fun _ => by rw [rxStep_state size _ _ hr, hc]; simp) (byte c.1 c.2 r hr hP)

/-- Such a stretch is never stalled, so presenting it takes every byte of it. -/
theorem presentBytes_inOneDatagram {bytes : List StreamByte} {s : State} (hone : InOneDatagram bytes)
    (hs : s.rx.state ≠ .done) :
    presentBytes bytes s = { s with rx := rxSteps s.cfg.payloadMax.val bytes s.rx } := by
  induction bytes generalizing s with
  | nil => rfl
  | cons c bytes ih =>
    obtain ⟨b, last⟩ := c
    have hbyte : presentBytes ((b, last) :: bytes) s = presentBytes bytes (rxByte b last s) := by
      simp [presentBytes, rxReady, hs]
    by_cases hne : bytes = []
    · subst hne
      exact hbyte
    · obtain ⟨rfl, hrest⟩ := hone.of_cons hne
      rw [hbyte, ih hrest]
      · rfl
      · rw [rxByte_rx, rxStep_state _ _ _ hs]; simp

/-- The state once the source's next `bytes` have been taken off its queue and accepted. -/
def afterBytes (bytes : List StreamByte) (s : State) : State :=
  { s with
    rx := rxSteps s.cfg.payloadMax.val bytes s.rx
    env := { s.env with rxIn := s.env.rxIn.drop bytes.length } }

@[simp] theorem afterBytes_nil (s : State) : afterBytes [] s = s := rfl

/-- A source's turn takes the next byte. -/
theorem sourceTurn_eq {s : State} (h : s.rx.state ≠ .done) :
    sourceTurn s = .next (afterBytes (s.env.rxIn.take 1) s) := by
  unfold sourceTurn
  split
  next hin => rw [hin, List.take_nil, afterBytes_nil]
  next b last bytes hin => simp [hin, rxReady, h, rxByte, afterBytes, rxSteps_cons]

/-- A datagram's turn takes the bytes up to the next `last`. -/
theorem datagramTurn_eq {s : State} (h : s.rx.state ≠ .done) :
    datagramTurn s = .next (afterBytes (splitDatagram s.env.rxIn).1 s) := by
  have hleft : s.env.rxIn.drop (splitDatagram s.env.rxIn).1.length = (splitDatagram s.env.rxIn).2 := by
    have happend := congrArg (List.drop (splitDatagram s.env.rxIn).1.length) (splitDatagram_append s.env.rxIn)
    rwa [List.drop_left, eq_comm] at happend
  rw [datagramTurn, wireDatagram_eq, presentBytes_inOneDatagram, afterBytes, hleft]
  · exact inOneDatagram_splitDatagram _
  · exact h

/-- A turn of the source takes its bytes off the queue and gives them to the RX engine, and does nothing else. -/
theorem takeTurn_source_or_datagram {u : Turn} (hu : u = .source ∨ u = .datagram) (s : State) :
    takeTurn u s = .next (afterBytes (takenBytes u s) s) := by
  by_cases hrst : s.env.rst = true
  · rcases hu with rfl | rfl <;> simp [takeTurn, takenBytes, hrst]
  · by_cases hdone : s.rx.state = .done
    · rcases hu with rfl | rfl <;>
        simp [takeTurn, takenBytes, hrst, hdone, sourceTurn_of_done, datagramTurn_of_done]
    · rcases hu with rfl | rfl <;>
        simp [takeTurn, takenBytes, hrst, hdone, sourceTurn_eq, datagramTurn_eq]

/-- Any other turn takes none. -/
theorem takenBytes_of_other {u : Turn} (hu : ¬ (u = .source ∨ u = .datagram)) (s : State) : takenBytes u s = [] := by
  rw [not_or] at hu
  simp [takenBytes, hu]

/-! ## The effect of a command, register by register -/

theorem CommandEffect.cfg_eq {i : Instr} {s u : State} (h : CommandEffect i s u) : u.cfg = s.cfg := by
  cases i <;> simp_all [CommandEffect]

theorem CommandEffect.env_eq {i : Instr} {s u : State} (h : CommandEffect i s u) : u.env = s.env := by
  cases i <;> simp_all [CommandEffect]

theorem CommandEffect.err_cases {i : Instr} {s u : State} (h : CommandEffect i s u) :
    u.err = s.err ∨ (i = .clrErr ∧ u.err = 0) := by
  cases i <;> simp_all [CommandEffect]

theorem CommandEffect.crcAcc_cases {i : Instr} {s u : State} (h : CommandEffect i s u) :
    u.crcAcc = s.crcAcc ∨ (i = .crcClear ∧ u.crcAcc = crcInit) ∨
      ∃ b, i = .crcByte b ∧ u.crcAcc = crcStep s.crcAcc b := by
  cases i <;> simp_all [CommandEffect]

theorem CommandEffect.rx_cases {i : Instr} {s u : State} (h : CommandEffect i s u) :
    u.rx = s.rx ∨ (i = .rxRelease ∧ s.rx.state = .done ∧ u.rx = { s.rx with state := .idle, result := .none }) := by
  cases i <;> simp_all [CommandEffect]

/-- What a command other than a fault can do to the TX engine: the four staging commands, in IDLE only. -/
inductive TxStaging (size : Nat) (t : TxEngine) : TxEngine → Prop
  | clear : TxStaging size t { t with len := 0 }
  | push (b : Byte) (room : t.len.toNat < size) :
    TxStaging size t { t with buf := Memory.write t.buf t.len.toNat b, len := t.len + 1 }
  | send (id : Byte) : TxStaging size t { t with cmd := id, idx := 0, crc := crcInit, state := .send }
  | setSeq (seq : Half) : TxStaging size t { t with seq := seq }

theorem CommandEffect.tx_cases {i : Instr} {s u : State} (h : CommandEffect i s u) :
    u.tx = s.tx ∨ (s.tx.state = .idle ∧ TxStaging s.cfg.payloadMax.val s.tx u.tx) := by
  cases i with
  | txClear => obtain ⟨hidle, rfl⟩ := h; exact .inr ⟨hidle, .clear⟩
  | txPush b => obtain ⟨hidle, room, rfl⟩ := h; exact .inr ⟨hidle, .push b room⟩
  | txSend id => obtain ⟨hidle, rfl⟩ := h; exact .inr ⟨hidle, .send id⟩
  | setSeq seq => obtain ⟨hidle, rfl⟩ := h; exact .inr ⟨hidle, .setSeq seq⟩
  | _ => left; simp_all [CommandEffect]

/-! ## The cases of a step -/

/-- The state once a turn and a command word have been taken. -/
def afterWord (ts : List Turn) (ws : List CmdWord) (s : State) : State :=
  { s with env := { s.env with turns := ts, hostIn := ws } }

/-- The state once the byte `b` has been given to the sink. -/
def afterEmit (b : Byte) (s : State) : State :=
  { s with tx := txAdvance b s.tx, env := { s.env with txOut := s.env.txOut ++ [(b, txLast s.tx)] } }

theorem txByte_eq {s : State} {b : Byte} (hb : txByteAt s.cfg.payloadMax.val s.tx = .ok b) :
    txByte s = .next (afterEmit b s) := by
  rw [txByte, hb, afterEmit]

theorem step_eq_takeTurn {s : State} {u : Turn} {ts : List Turn} (hturns : s.env.turns = u :: ts) :
    step s = takeTurn u (afterTurn ts s) := by
  simp only [step, nextTurn, hturns, afterTurn]

/-- In SEND the sink's turn is the TxByte step (41_encode.md R159). -/
theorem step_sink_of_send {s : State} {ts : List Turn} {b : Byte} (hrst : s.env.rst = false)
    (hturns : s.env.turns = .sink :: ts) (hsend : s.tx.state = .send)
    (hb : txByteAt s.cfg.payloadMax.val s.tx = .ok b) : step s = .next (afterEmit b (afterTurn ts s)) := by
  rw [step_eq_takeTurn hturns, takeTurn, if_neg (by simp [hrst]), sinkTurn, if_pos (by exact hsend)]
  exact txByte_eq hb

/-- What the turn `u` can leave, with the bytes a turn of the source takes and the effect of a command. -/
inductive StepCase (s : State) (ts : List Turn) : Turn → State → Prop
  | assert : StepCase s ts .rstAssert (assertReset (afterTurn ts s))
  | release : StepCase s ts .rstRelease (releaseReset (afterTurn ts s))
  | pass {u : Turn} (hu : u ≠ .rstAssert) (hnone : takenBytes u s = []) : StepCase s ts u (afterTurn ts s)
  | fault (w : CmdWord) (ws : List CmdWord) (hin : s.env.hostIn = w :: ws) (c : Cause) :
    StepCase s ts .host (takeFault c (afterWord ts ws s))
  | command (w : CmdWord) (ws : List CmdWord) (hin : s.env.hostIn = w :: ws) {i : Instr} (hi : decodeCommand w = .ok i)
    (v : Half) {x : State} (hx : CommandEffect i (afterWord ts ws s) x) : StepCase s ts .host (respond v x)
  | bytes {u : Turn} (hu : u = .source ∨ u = .datagram) :
    StepCase s ts u (afterBytes (takenBytes u s) (afterTurn ts s))
  | emit (hsend : s.tx.state = .send) (b : Byte) (hb : txByteAt s.cfg.payloadMax.val s.tx = .ok b) :
    StepCase s ts .sink (afterEmit b (afterTurn ts s))

/-- Every step is one of these cases. -/
theorem step_cases {s t : State} {u : Turn} {ts : List Turn} (hturns : s.env.turns = u :: ts)
    (h : step s = .next t) : StepCase s ts u t := by
  by_cases hu : u = .source ∨ u = .datagram
  · rw [step_eq_takeTurn hturns, takeTurn_source_or_datagram hu] at h
    obtain rfl := Host.Outcome.next.inj h
    exact .bytes hu
  · obtain ⟨u', ts', hturns', hcases⟩ := step_next h
    obtain ⟨rfl, rfl⟩ := List.cons.inj (hturns.symm.trans hturns')
    rcases hcases with ⟨rfl, rfl⟩ | ⟨rfl, rfl⟩ | ⟨hne, rfl⟩ | ⟨rfl, -, w, ws, hin, hword⟩ | ⟨rfl, -⟩ | ⟨rfl, -⟩ |
      ⟨rfl, -, hsend, b, hb, rfl⟩
    · exact .assert
    · exact .release
    · exact .pass hne (takenBytes_of_other hu s)
    · rcases hword with ⟨i, hi, hcmd, hexec⟩ | ⟨r, -, rfl⟩
      · rcases exec_command_next hcmd hexec with ⟨c, rfl⟩ | ⟨v, x, rfl, hx⟩
        · exact .fault w ws hin c
        · exact .command w ws hin hi v hx
      · exact .fault w ws hin .illegalCommand
    · exact absurd (.inl rfl) hu
    · exact absurd (.inr rfl) hu
    · exact .emit hsend b hb

end Sys2Proof.Machine
end

section
/-! The block's invariant (10_state.md R49): what each engine's operations do to its part, then the step. -/

namespace Sys2Proof.Machine

/-! ## The TX part -/

theorem txInv_reset (size : Nat) : TxInv size TxEngine.reset :=
  ⟨Nat.zero_le _, fun _ => rfl, nofun, fun _ hk => absurd hk (Nat.not_lt_zero _), .nil, List.forall_mem_nil _⟩

/-- A staged byte is in its cell, and the cells before it stay written. -/
theorem TxStaging.txInv {size : Nat} {t t' : TxEngine} (h : TxStaging size t t') (hidle : t.state = .idle)
    (hinv : TxInv size t) : TxInv size t' := by
  obtain ⟨hlen, hidx, -, hcells, hwf, hwithin⟩ := hinv
  have hnosend : t.state = .send → False := by simp [hidle]
  cases h with
  | clear => exact ⟨Nat.zero_le _, hidx, (hnosend · |>.elim), fun _ hk => absurd hk (Nat.not_lt_zero _), hwf, hwithin⟩
  | push b room =>
    have hnext : (t.len + 1).toNat ≤ t.len.toNat + 1 := by
      rw [BitVec.toNat_add]; exact Nat.mod_le _ _
    refine ⟨hnext.trans room, hidx, (hnosend · |>.elim), fun k hk => ?_, Memory.write_wf _ _ hwf,
      Memory.write_within _ room hwithin⟩
    rw [Memory.read_write]
    split
    · rfl
    · exact hcells k (by simp only at hk; omega)
  | send id => exact ⟨hlen, nofun, fun _ => Nat.zero_le _, hcells, hwf, hwithin⟩
  | setSeq seq => exact ⟨hlen, hidx, (hnosend · |>.elim), hcells, hwf, hwithin⟩

/-- Within the frame the index does not wrap. -/
theorem toNat_idx_succ {t : TxEngine} (h : t.idx.toNat ≤ 9 + t.len.toNat) : (t.idx + 1).toNat = t.idx.toNat + 1 := by
  have := t.len.isLt
  rw [BitVec.toNat_add, show (1 : Index).toNat = 1 from rfl, Nat.mod_eq_of_lt (by omega)]

theorem txAdvance_of_last {t : TxEngine} (b : Byte) (h : t.idx.toNat = 9 + t.len.toNat) :
    txAdvance b t = { t with state := .idle, idx := 0 } := by
  simp [txAdvance, txLast, h]

theorem txAdvance_of_not_last {t : TxEngine} (b : Byte) (h : t.idx.toNat ≠ 9 + t.len.toNat) :
    txAdvance b t = { t with
      crc := if t.idx.toNat < 8 + t.len.toNat then crcStep t.crc b else t.crc, idx := t.idx + 1 } := by
  simp [txAdvance, txLast, h]

theorem txAdvance_txInv {size : Nat} {t : TxEngine} (b : Byte) (hstate : t.state = .send) (hinv : TxInv size t) :
    TxInv size (txAdvance b t) := by
  obtain ⟨hlen, -, hidx, hcells, hwf, hwithin⟩ := hinv
  by_cases hlast : t.idx.toNat = 9 + t.len.toNat
  · rw [txAdvance_of_last b hlast]
    exact ⟨hlen, fun _ => rfl, nofun, hcells, hwf, hwithin⟩
  · rw [txAdvance_of_not_last b hlast]
    refine ⟨hlen, by simp [hstate], fun hsend => ?_, hcells, hwf, hwithin⟩
    have := hidx hsend
    simp only [toNat_idx_succ this]
    omega

/-! ## The RX part -/

theorem rxInv_reset (size : Nat) : RxInv size RxEngine.reset :=
  ⟨by decide, by simp [RxEngine.reset], by simp [RxEngine.reset], .nil, List.forall_mem_nil _⟩

theorem rxInv_release {size : Nat} {r : RxEngine} (h : RxInv size r) :
    RxInv size { r with state := .idle, result := .none } := by
  obtain ⟨-, -, -, hwf, hwithin⟩ := h
  exact ⟨by simp, by simp, by simp, hwf, hwithin⟩

theorem toNat_sat17 (n : Nat) : (sat17 n).toNat = min n 0x1FFFF := by
  rw [sat17, BitVec.toNat_ofNat, Nat.mod_eq_of_lt (by omega)]

/-- The first byte of a datagram finds the count at 0, so no payload byte has been taken. -/
theorem rxBegin_rxInv {size : Nat} {r : RxEngine} (hr : r.state ≠ .done) (h : RxInv size r) :
    RxInv size (rxBegin r) := by
  cases hstate : r.state with
  | done => exact absurd hstate hr
  | recv => rwa [rxBegin_of_recv hstate]
  | idle =>
    rw [rxBegin_of_idle hstate]
    obtain ⟨hverdict, -, -, hwf, hwithin⟩ := h
    have hnone : r.result = .none := by simpa [hr] using hverdict
    exact ⟨by simp [rxInit, hnone], by simp [rxInit], by simp [rxInit, hnone], hwf, hwithin⟩

/-- The cells a byte leaves: its own, if it is a payload byte that has one, and all others as they were. -/
theorem read_rxTake_buf (size : Nat) (b : Byte) (r : RxEngine) (k : Nat) :
    Memory.read (rxTake size b r).buf k =
      if r.cnt.toNat = 8 + k ∧ k < r.len.toNat ∧ k < size then some b else Memory.read r.buf k := by
  simp only [rxTake]
  split
  next htaken =>
    rw [Memory.read_write]
    exact if_congr (by omega) rfl rfl
  next hnone =>
    rw [if_neg (by omega)]

theorem rxTake_len_of_payload {size : Nat} {r : RxEngine} (b : Byte) (h : 8 ≤ r.cnt.toNat) :
    (rxTake size b r).len = r.len := by
  simp only [rxTake]
  rw [if_neg (by omega), if_neg (by omega)]

theorem toNat_rxTake_cnt (size : Nat) (b : Byte) (r : RxEngine) :
    (rxTake size b r).cnt.toNat = min (r.cnt.toNat + 1) 0x1FFFF := toNat_sat17 _

theorem rxTake_rxInv {size : Nat} {r : RxEngine} (b : Byte) (hr : r.state = .recv) (h : RxInv size r) :
    RxInv size (rxTake size b r) := by
  obtain ⟨hverdict, hcells, -, hwf, hwithin⟩ := h
  have hnone : r.result = .none := by simpa [hr] using hverdict
  refine ⟨hverdict, fun _ k hk hcnt hsize => ?_, by simp [hnone], ?_, ?_⟩
  · rw [toNat_rxTake_cnt] at hcnt
    rw [rxTake_len_of_payload b (by omega)] at hk
    rw [read_rxTake_buf]
    split
    · rfl
    · exact hcells (by simp [hr]) k hk (by omega) hsize
  · simp only [rxTake]
    split
    · exact Memory.write_wf _ _ hwf
    · exact hwf
  · simp only [rxTake]
    split
    next hcell => exact Memory.write_within _ hcell.2.2 hwithin
    next => exact hwithin

theorem rxVerdict_ne_none (size : Nat) (r : RxEngine) : rxVerdict size r ≠ .none := by
  unfold rxVerdict
  repeat' split
  all_goals simp

/-- An Ok verdict says that the datagram is complete and fits the buffer (42_decode_validate.md R180, R181). -/
theorem rxVerdict_eq_ok {size : Nat} {r : RxEngine} (h : rxVerdict size r = .ok) :
    r.cnt.toNat = 10 + r.len.toNat ∧ r.len.toNat ≤ size := by
  unfold rxVerdict at h
  split at h
  · cases h
  · split at h
    · cases h
    · split at h
      · cases h
      · omega

theorem rxStep_rxInv {size : Nat} {r : RxEngine} (b : Byte) (last : Bool) (hr : r.state ≠ .done)
    (h : RxInv size r) : RxInv size (rxStep size b last r) := by
  have htake := rxTake_rxInv b (rxBegin_state hr) (rxBegin_rxInv hr h)
  cases last with
  | false => exact htake
  | true =>
    obtain ⟨-, hcells, -, hwf, hwithin⟩ := htake
    rw [rxStep_true]
    exact ⟨by simp [rxVerdict_ne_none], fun _ => hcells (by simp [rxBegin_state hr]), rxVerdict_eq_ok, hwf, hwithin⟩

/-- Where no byte may be taken, none is: a turn of the source takes bytes outside DONE only. -/
theorem state_ne_done_of_takenBytes {u : Turn} {s : State} (h : takenBytes u s ≠ []) : s.rx.state ≠ .done := by
  intro hdone
  simp [takenBytes, hdone] at h

theorem rxSteps_takenBytes_rxInv {size : Nat} (u : Turn) {s : State} (h : RxInv size s.rx) :
    RxInv size (rxSteps size (takenBytes u s) s.rx) :=
  rxSteps_induct (fun b last _ => rxStep_rxInv b last) (inOneDatagram_takenBytes u s) state_ne_done_of_takenBytes h

/-! ## The block -/

theorem CommandEffect.blockInv {i : Instr} {s u : State} (he : CommandEffect i s u) (h : BlockInv s) : BlockInv u := by
  obtain ⟨htx, hrx⟩ := h
  rw [BlockInv, he.cfg_eq]
  constructor
  · rcases he.tx_cases with heq | ⟨hidle, hstaging⟩
    · rwa [heq]
    · exact hstaging.txInv hidle htx
  · rcases he.rx_cases with heq | ⟨-, -, heq⟩ <;> rw [heq]
    · exact hrx
    · exact rxInv_release hrx

/-- Settles O52: the invariant is one part for each engine, and each case of a step is an operation of one of them. -/
theorem invariantKept : Obligations.InvariantKept := by
  intro s t hinv hstep
  obtain ⟨u, ts, hturns, -⟩ := step_next hstep
  cases step_cases hturns hstep with
  | assert => exact ⟨txInv_reset _, rxInv_reset _⟩
  | release => exact hinv
  | pass => exact hinv
  | fault => exact hinv
  | command w ws hin hi v hx => exact hx.blockInv (s := afterWord ts ws s) hinv
  | bytes => exact ⟨hinv.1, rxSteps_takenBytes_rxInv u hinv.2⟩
  | emit hsend b hb => exact ⟨txAdvance_txInv b hsend hinv.1, hinv.2⟩

theorem blockInv_reset : BlockInv State.reset := ⟨txInv_reset _, rxInv_reset _⟩

/-- Settles O51: at reset both engines are IDLE, so what the registers stand for is said of no frame and no datagram. -/
theorem invariantAtReset : Obligations.InvariantAtReset := ⟨blockInv_reset, nofun, fun h => absurd rfl h⟩

end Sys2Proof.Machine
end

section
/-! The emitted bytes (10_state.md R49 (f), 41_encode.md R158 to R160): the byte a TxByte step emits is the frame's byte
of its index, so what the sink has been given stays a beginning of the frame under every interleaving. -/

namespace Sys2Proof.Machine

/-! ## The frame's bytes by index -/

@[simp] theorem length_markLast (l : List Byte) : (markLast l).length = l.length := by
  fun_induction markLast l with
  | case1 => rfl
  | case2 => rfl
  | case3 b c l ih => simp [ih]

theorem getElem?_markLast (l : List Byte) (i : Nat) :
    (markLast l)[i]? = l[i]?.map fun b => (b, decide (i + 1 = l.length)) := by
  fun_induction markLast l generalizing i with
  | case1 => rfl
  | case2 b => cases i <;> simp
  | case3 b c l ih =>
    cases i with
    | zero => simp
    | succ i => simp [ih]

@[simp] theorem length_encodePre (id : Byte) (seq : Half) (payload : List Byte) :
    (encodePre id seq payload).length = 8 + payload.length := by
  simp [encodePre]; omega

@[simp] theorem length_encodeFrame (id : Byte) (seq : Half) (payload : List Byte) :
    (encodeFrame id seq payload).length = 10 + payload.length := by
  simp [encodeFrame]; omega

theorem getElem?_encodeFrame_pre {id : Byte} {seq : Half} {payload : List Byte} {i : Nat}
    (h : i < 8 + payload.length) : (encodeFrame id seq payload)[i]? = (encodePre id seq payload)[i]? :=
  List.getElem?_append_left (by simpa using h)

theorem getElem?_encodeFrame_field (id : Byte) (seq : Half) (payload : List Byte) (i : Nat) :
    (encodeFrame id seq payload)[8 + payload.length + i]? = (le16 (checksum (encodePre id seq payload)))[i]? := by
  rw [encodeFrame, List.getElem?_append_right (by simp)]
  simp

/-! ## What `txByteAt` emits -/

/-- The bytes before the payload (41_encode.md R150). -/
def TxEngine.prefixBytes (t : TxEngine) : List Byte :=
  [hdr0, hdr1, ctrlConst, lo8 t.len, hi8 t.len, lo8 t.seq, hi8 t.seq, t.cmd]

/-- The bytes before the trailing field are those eight and the payload. -/
theorem encodePre_eq_prefixBytes {t : TxEngine} {payload : List Byte} (h : payload.length = t.len.toNat) :
    encodePre t.cmd t.seq payload = t.prefixBytes ++ payload := by
  simp [encodePre, h, TxEngine.prefixBytes, le16]

theorem txByteAt_prefix {size : Nat} {t : TxEngine} (h : t.idx.toNat < 8) :
    (txByteAt size t).toOption = t.prefixBytes[t.idx.toNat]? := by
  unfold txByteAt
  generalize t.idx.toNat = i at h
  interval_cases i <;> rfl

theorem txByteAt_of_ge {size : Nat} {t : TxEngine} (h : 8 ≤ t.idx.toNat) :
    txByteAt size t =
      if t.idx.toNat < 8 + t.len.toNat then readCell size t.buf (t.idx.toNat - 8)
      else if t.idx.toNat = 8 + t.len.toNat then .ok (lo8 t.crc)
      else if t.idx.toNat = 9 + t.len.toNat then .ok (hi8 t.crc)
      else .error .txIndexOutOfRange := by
  unfold txByteAt
  iterate 8 rw [if_neg (by omega)]

/-- `tx_crc` sums the bytes before the trailing field that have been emitted, and the staged cells hold `payload`. -/
structure TxSums (payload : List Byte) (t : TxEngine) : Prop where
  cells : Memory.firstN t.buf t.len.toNat = some payload
  crc : t.crc = checksum ((encodePre t.cmd t.seq payload).take t.idx.toNat)

section
variable {size : Nat} {payload : List Byte} {t : TxEngine} {b : Byte}

theorem TxSums.length_payload (h : TxSums payload t) : payload.length = t.len.toNat :=
  (Memory.firstN_eq_some.1 h.cells).1

theorem TxSums.read_payload (h : TxSums payload t) {k : Nat} (hk : k < t.len.toNat) :
    Memory.read t.buf k = payload[k]? :=
  (Memory.firstN_eq_some.1 h.cells).2 k hk

/-- From the trailing field on `tx_crc` is the frame's checksum. -/
theorem TxSums.crc_of_field (h : TxSums payload t) (hi : 8 + t.len.toNat ≤ t.idx.toNat) :
    t.crc = checksum (encodePre t.cmd t.seq payload) := by
  rw [h.crc, List.take_of_length_le (by simpa [h.length_payload] using hi)]

/-- Before the trailing field the emitted byte is the summed one (41_encode.md R158). -/
theorem TxSums.getElem?_encodePre (h : TxSums payload t) (hb : txByteAt size t = .ok b)
    (hi : t.idx.toNat < 8 + t.len.toNat) : (encodePre t.cmd t.seq payload)[t.idx.toNat]? = some b := by
  rw [encodePre_eq_prefixBytes h.length_payload]
  by_cases h8 : t.idx.toNat < 8
  · rw [List.getElem?_append_left h8, ← txByteAt_prefix (size := size) h8, hb]
    rfl
  · rw [txByteAt_of_ge (by omega), if_pos hi] at hb
    rw [List.getElem?_append_right (by simpa [TxEngine.prefixBytes] using h8)]
    exact (h.read_payload (k := t.idx.toNat - 8) (by omega)).symm.trans (readCell_ok_iff.1 hb).2

/-- The byte a TxByte step emits is the frame's byte of the index (41_encode.md R158). -/
theorem TxSums.getElem?_encodeFrame (h : TxSums payload t) (hb : txByteAt size t = .ok b) :
    (encodeFrame t.cmd t.seq payload)[t.idx.toNat]? = some b := by
  by_cases hpre : t.idx.toNat < 8 + t.len.toNat
  · rw [getElem?_encodeFrame_pre (by rwa [h.length_payload])]
    exact h.getElem?_encodePre hb hpre
  · have hcrc := h.crc_of_field (by omega)
    have hfield := getElem?_encodeFrame_field t.cmd t.seq payload
    rw [h.length_payload, ← hcrc] at hfield
    rw [txByteAt_of_ge (by omega), if_neg hpre] at hb
    split at hb
    next hlow => rw [hlow, ← Except.ok.inj hb]; exact hfield 0
    next =>
      split at hb
      next hhigh => rw [hhigh, ← Except.ok.inj hb, show 9 + t.len.toNat = 8 + t.len.toNat + 1 by omega]; exact hfield 1
      next => cases hb

/-- So one more emitted byte is one more byte of the marked frame. -/
theorem TxSums.take_markLast_succ (h : TxSums payload t) (hb : txByteAt size t = .ok b) :
    (markLast (encodeFrame t.cmd t.seq payload)).take (t.idx.toNat + 1) =
      (markLast (encodeFrame t.cmd t.seq payload)).take t.idx.toNat ++ [(b, txLast t)] := by
  have hlast : (t.idx.toNat + 1 = 10 + t.len.toNat) ↔ t.idx.toNat = 9 + t.len.toNat := by omega
  rw [List.take_add_one, getElem?_markLast, h.getElem?_encodeFrame hb]
  simp [h.length_payload, txLast, hlast]

/-- A byte that is not the last keeps `tx_crc` the sum of those emitted (41_encode.md R159). -/
theorem TxSums.advance (h : TxSums payload t) (hb : txByteAt size t = .ok b)
    (hle : t.idx.toNat ≤ 9 + t.len.toNat) (hlast : t.idx.toNat ≠ 9 + t.len.toNat) :
    TxSums payload (txAdvance b t) := by
  rw [txAdvance_of_not_last b hlast]
  refine ⟨h.cells, ?_⟩
  simp only [toNat_idx_succ hle]
  split
  next hpre =>
    rw [List.take_add_one, h.getElem?_encodePre hb hpre, h.crc]
    exact (checksum_snoc _ _).symm
  next hfield =>
    rw [List.take_of_length_le (by rw [length_encodePre, h.length_payload]; omega)]
    exact h.crc_of_field (by omega)

end

/-! ## Every step keeps what the sink has been given -/

theorem txEmitted_iff {s : State} :
    TxEmitted s ↔ (s.tx.state = .send → ∃ payload before, TxSums payload s.tx ∧
      s.env.txOut = before ++ (markLast (encodeFrame s.tx.cmd s.tx.seq payload)).take s.tx.idx.toNat) := by
  refine imp_congr_right fun _ => exists_congr fun payload => exists_congr fun before => ?_
  exact ⟨fun ⟨hcells, hcrc, hout⟩ => ⟨⟨hcells, hcrc⟩, hout⟩, fun ⟨⟨hcells, hcrc⟩, hout⟩ => ⟨hcells, hcrc, hout⟩⟩

theorem TxEmitted.congr {s t : State} (htx : t.tx = s.tx) (hout : t.env.txOut = s.env.txOut) (h : TxEmitted s) :
    TxEmitted t := by
  rw [TxEmitted, htx, hout]
  exact h

/-- The written cells are the payload they hold. -/
theorem Memory.exists_firstN {m : Memory} {n : Nat} (h : ∀ k < n, (Memory.read m k).isSome = true) :
    ∃ payload, Memory.firstN m n = some payload := by
  induction n with
  | zero => exact ⟨[], rfl⟩
  | succ n ih =>
    obtain ⟨payload, hpayload⟩ := ih fun k hk => h k (by omega)
    obtain ⟨b, hb⟩ := Option.isSome_iff_exists.1 (h n (by omega))
    exact ⟨payload ++ [b], by simp [Memory.firstN, hpayload, hb]⟩

/-- Of the staging commands only TX_SEND begins a frame (10_state.md R27). -/
theorem TxStaging.eq_send {size : Nat} {t t' : TxEngine} (h : TxStaging size t t') (hidle : t.state = .idle)
    (hsend : t'.state = .send) : ∃ id, t' = { t with cmd := id, idx := 0, crc := crcInit, state := .send } := by
  cases h with
  | send id => exact ⟨id, rfl⟩
  | clear => cases hidle.symm.trans hsend
  | push => cases hidle.symm.trans hsend
  | setSeq => cases hidle.symm.trans hsend

/-- A command leaves a frame in flight alone, or begins one with nothing emitted. -/
theorem CommandEffect.txEmitted {i : Instr} {s u : State} (he : CommandEffect i s u) (hinv : BlockInv s)
    (h : TxEmitted s) : TxEmitted u := by
  rcases he.tx_cases with heq | ⟨hidle, hstaging⟩
  · exact h.congr heq (congrArg Env.txOut he.env_eq)
  · intro hsend
    obtain ⟨⟨-, -, -, hcells, -, -⟩, -⟩ := hinv
    obtain ⟨id, heq⟩ := hstaging.eq_send hidle hsend
    obtain ⟨payload, hpayload⟩ := Memory.exists_firstN hcells
    rw [heq, he.env_eq]
    exact ⟨payload, s.env.txOut, hpayload, rfl, by simp⟩

/-- A TxByte step gives the sink one more byte of the frame, or ends it. -/
theorem txEmitted_afterEmit {s : State} {b : Byte} (hinv : TxInv s.cfg.payloadMax.val s.tx)
    (hsend : s.tx.state = .send) (hb : txByteAt s.cfg.payloadMax.val s.tx = .ok b) (h : TxEmitted s) :
    TxEmitted (afterEmit b s) := by
  obtain ⟨-, -, hle, -, -, -⟩ := hinv
  obtain ⟨payload, before, hsums, hout⟩ := txEmitted_iff.1 h hsend
  by_cases hlast : s.tx.idx.toNat = 9 + s.tx.len.toNat
  · rw [afterEmit, txAdvance_of_last b hlast]
    exact nofun
  · refine txEmitted_iff.2 fun _ => ⟨payload, before, hsums.advance hb (hle hsend) hlast, ?_⟩
    have htake := hsums.take_markLast_succ hb
    simp only [afterEmit, txAdvance_of_not_last b hlast, toNat_idx_succ (hle hsend), htake, hout, List.append_assoc]

theorem step_txEmitted {s t : State} (hinv : BlockInv s) (h : TxEmitted s) (hstep : step s = .next t) :
    TxEmitted t := by
  obtain ⟨u, ts, hturns, -⟩ := step_next hstep
  cases step_cases hturns hstep with
  | assert => exact nofun
  | release => exact h
  | pass => exact h
  | fault => exact h
  | command w ws hin hi v hx => exact hx.txEmitted (s := afterWord ts ws s) hinv h
  | bytes => exact h
  | emit hsend b hb => exact txEmitted_afterEmit (s := afterTurn ts s) hinv.1 hsend hb h

/-- The TxByte step at the last index gives the sink the frame's last byte. -/
theorem step_sink_last {s t : State} {ts : List Turn} (h : TxEmitted s) (hrst : s.env.rst = false)
    (hturns : s.env.turns = .sink :: ts) (hsend : s.tx.state = .send) (hlast : s.tx.idx.toNat = 9 + s.tx.len.toNat)
    (hstep : step s = .next t) :
    t.tx.state = .idle ∧ ∃ payload before, Memory.firstN s.tx.buf s.tx.len.toNat = some payload ∧
      t.env.txOut = before ++ markLast (encodeFrame s.tx.cmd s.tx.seq payload) := by
  obtain ⟨payload, before, hsums, hout⟩ := txEmitted_iff.1 h hsend
  have hb : txByteAt s.cfg.payloadMax.val s.tx = .ok (hi8 s.tx.crc) := by
    rw [txByteAt_of_ge (by omega), if_neg (by omega), if_neg (by omega), if_pos hlast]
  rw [step_sink_of_send hrst hturns hsend hb] at hstep
  obtain rfl := Host.Outcome.next.inj hstep
  refine ⟨by simp [afterEmit, txAdvance_of_last _ hlast], payload, before, hsums.cells, ?_⟩
  have hwhole := hsums.take_markLast_succ hb
  rw [List.take_of_length_le (by simp [hsums.length_payload]; omega)] at hwhole
  rw [hwhole, ← List.append_assoc, ← hout]
  rfl

/-- Settles O33: the first part is the invariant above, the second its last byte. -/
theorem emittedBytesAreTheFrame : Obligations.EmittedBytesAreTheFrame :=
  ⟨fun _ _ hinv h hstep => step_txEmitted hinv h hstep,
    fun _ _ _ _ h hrst hturns hsend hlast hstep => step_sink_last h hrst hturns hsend hlast hstep⟩

end Sys2Proof.Machine
end

section
/-! The RX registers stand for the bytes of one datagram (10_state.md R49 (g), 42_decode_validate.md R173 to R181): one
more accepted byte, a stretch of them, and then every step. -/

namespace Sys2Proof.Machine

/-! ## One more byte of a sequence -/

theorem byteAt_of_length_le {d : List Byte} {i : Nat} (h : d.length ≤ i) : byteAt d i = 0 := by
  simp [byteAt, h]

theorem byteAt_snoc (d : List Byte) (b : Byte) (i : Nat) :
    byteAt (d ++ [b]) i = if d.length = i then b else byteAt d i := by
  rcases Nat.lt_trichotomy i d.length with hlt | rfl | hgt
  · rw [if_neg (by omega), byteAt, byteAt, List.getD_append _ _ _ _ hlt]
  · rw [if_pos rfl, byteAt, List.getD_append_right _ _ _ _ (Nat.le_refl _), Nat.sub_self, List.getD_cons_zero]
  · rw [if_neg (by omega), byteAt_of_length_le (by simp; omega), byteAt_of_length_le (by omega)]

/-- A two-byte field is written a byte at a time, low byte first. -/
theorem unle16_byteAt_snoc {d : List Byte} (b : Byte) {j : Nat} {v : Half}
    (hv : v = unle16 (byteAt d j) (byteAt d (j + 1))) :
    unle16 (byteAt (d ++ [b]) j) (byteAt (d ++ [b]) (j + 1)) =
      if d.length = j then setLo8 v b else if d.length = j + 1 then setHi8 v b else v := by
  rw [byteAt_snoc, byteAt_snoc]
  by_cases hlow : d.length = j
  · simp [hlow, hv, setLo8]
  · by_cases hhigh : d.length = j + 1
    · simp [hhigh, hv, setHi8]
    · simp [hlow, hhigh, hv]

theorem checksum_take_snoc (d : List Byte) (b : Byte) (n : Nat) :
    checksum ((d ++ [b]).take n) = if d.length < n then crcStep (checksum (d.take n)) b else checksum (d.take n) := by
  split
  next hin =>
    rw [List.take_of_length_le (by simp; omega), List.take_of_length_le (by omega), checksum_snoc]
  next hout => rw [List.take_append_of_le_length (by omega)]

/-! ## The registers after some bytes of a datagram, possibly none -/

/-- A header byte that has arrived is not the constant (42_decode_validate.md R174). -/
def headerWrong (d : List Byte) : Prop :=
  (1 ≤ d.length ∧ byteAt d 0 ≠ hdr0) ∨ (2 ≤ d.length ∧ byteAt d 1 ≠ hdr1)

/-- `RxHolds` with the header bytes judged only once they have arrived, so that it can be said of no bytes at all. -/
structure RxTaken (size : Nat) (d : List Byte) (r : RxEngine) : Prop where
  cnt : r.cnt = sat17 d.length
  hdrBad : r.hdrBad = true ↔ headerWrong d
  ctrl : r.ctrl = byteAt d 2
  len : r.len = declaredLen d
  seq : r.seq = unle16 (byteAt d 5) (byteAt d 6)
  cmd : r.cmd = byteAt d 7
  crc : r.crc = checksum (d.take (8 + r.len.toNat))
  fcs : r.fcs = unle16 (byteAt d (8 + r.len.toNat)) (byteAt d (8 + r.len.toNat + 1))
  cells : ∀ k < r.len.toNat, k < size → 8 + k < d.length → Memory.read r.buf k = some (byteAt d (8 + k))

theorem rxHolds_iff {size : Nat} {d : List Byte} {r : RxEngine} (hd : d ≠ []) : RxHolds size d r ↔ RxTaken size d r := by
  have hlen : 1 ≤ d.length := List.length_pos_iff.2 hd
  have hheader : headerWrong d ↔ byteAt d 0 ≠ hdr0 ∨ (2 ≤ d.length ∧ byteAt d 1 ≠ hdr1) := by
    simp only [headerWrong, hlen, true_and]
  have hnine : 9 + r.len.toNat = 8 + r.len.toNat + 1 := by omega
  rw [RxHolds, ← hheader, hnine]
  exact ⟨fun ⟨cnt, hdrBad, ctrl, len, seq, cmd, crc, fcs, cells⟩ => ⟨cnt, hdrBad, ctrl, len, seq, cmd, crc, fcs, cells⟩,
    fun ⟨cnt, hdrBad, ctrl, len, seq, cmd, crc, fcs, cells⟩ => ⟨cnt, hdrBad, ctrl, len, seq, cmd, crc, fcs, cells⟩⟩

/-- R173: at the first byte the registers are those of no bytes, whatever they held. -/
theorem rxTaken_nil_rxInit (size : Nat) (r : RxEngine) : RxTaken size [] (rxInit r) where
  cnt := rfl
  hdrBad := by simp [rxInit, headerWrong]
  ctrl := rfl
  len := rfl
  seq := rfl
  cmd := rfl
  crc := rfl
  fcs := by rw [byteAt_of_length_le (Nat.zero_le _), byteAt_of_length_le (Nat.zero_le _)]; rfl
  cells := fun _ hk => absurd hk (Nat.not_lt_zero _)

section
variable {size : Nat} {d : List Byte} {r : RxEngine}

/-- The count is the number of bytes as long as it matters: it saturates beyond every index a rule speaks of. -/
theorem RxTaken.cnt_eq_iff (h : RxTaken size d r) {n : Nat} (hn : n < 0x1FFFF) :
    r.cnt.toNat = n ↔ d.length = n := by
  rw [h.cnt, toNat_sat17]; omega

theorem RxTaken.cnt_lt_iff (h : RxTaken size d r) {n : Nat} (hn : n ≤ 0x1FFFF) :
    r.cnt.toNat < n ↔ d.length < n := by
  rw [h.cnt, toNat_sat17]; omega

theorem headerWrong_snoc (d : List Byte) (b : Byte) :
    headerWrong (d ++ [b]) ↔ headerWrong d ∨ (d.length = 0 ∧ b ≠ hdr0) ∨ (d.length = 1 ∧ b ≠ hdr1) := by
  match d with
  | [] => simp [headerWrong, byteAt]
  | [x] => simp [headerWrong, byteAt]
  | x :: y :: d => simp [headerWrong, byteAt]

theorem RxTaken.len_snoc (h : RxTaken size d r) (b : Byte) : (rxTake size b r).len = declaredLen (d ++ [b]) := by
  simp only [rxTake, h.cnt_eq_iff (n := 3) (by decide), h.cnt_eq_iff (n := 4) (by decide)]
  exact (unle16_byteAt_snoc b h.len).symm

theorem RxTaken.crc_snoc (h : RxTaken size d r) (b : Byte) :
    (rxTake size b r).crc = checksum ((d ++ [b]).take (8 + (rxTake size b r).len.toNat)) := by
  have hL := r.len.isLt
  rw [checksum_take_snoc]
  by_cases hprefix : d.length < 8
  · have hstep : (rxTake size b r).crc = crcStep r.crc b := if_pos (.inl ((h.cnt_lt_iff (by omega)).2 hprefix))
    rw [if_pos (by omega), hstep, h.crc, List.take_of_length_le (by omega), List.take_of_length_le (by omega)]
  · have hcnt : ¬ r.cnt.toNat < 8 := by rwa [h.cnt_lt_iff (by omega)]
    rw [rxTake_len_of_payload b (by omega), ← h.crc]
    simp only [rxTake, hcnt, false_or, h.cnt_lt_iff (n := 8 + r.len.toNat) (by omega)]

theorem RxTaken.fcs_snoc (h : RxTaken size d r) (b : Byte) :
    (rxTake size b r).fcs =
      unle16 (byteAt (d ++ [b]) (8 + (rxTake size b r).len.toNat))
        (byteAt (d ++ [b]) (8 + (rxTake size b r).len.toNat + 1)) := by
  have hL := r.len.isLt
  by_cases hprefix : d.length < 8
  · have hcnt : ¬ 8 ≤ r.cnt.toNat := not_le.2 ((h.cnt_lt_iff (by omega)).2 hprefix)
    have hkeep : (rxTake size b r).fcs = r.fcs := by simp [rxTake, hcnt]
    have hbeyond : ∀ L : Nat, byteAt (d ++ [b]) (8 + L) = 0 ∧ byteAt (d ++ [b]) (8 + L + 1) = 0 := fun L =>
      ⟨byteAt_of_length_le (by simp; omega), byteAt_of_length_le (by simp; omega)⟩
    rw [hkeep, h.fcs, byteAt_of_length_le (by omega), byteAt_of_length_le (by omega), (hbeyond _).1, (hbeyond _).2]
  · have hcnt : 8 ≤ r.cnt.toNat := not_lt.1 (by rwa [h.cnt_lt_iff (by omega)])
    rw [rxTake_len_of_payload b hcnt, unle16_byteAt_snoc b h.fcs]
    have hnine : 9 + r.len.toNat = 8 + r.len.toNat + 1 := by omega
    simp only [rxTake, hcnt, true_and, hnine, h.cnt_eq_iff (n := 8 + r.len.toNat) (by omega),
      h.cnt_eq_iff (n := 8 + r.len.toNat + 1) (by omega)]

/-- R178: the cells hold the payload bytes taken so far, the new one among them. -/
theorem RxTaken.cells_snoc (h : RxTaken size d r) (b : Byte) {k : Nat} (hk : k < (rxTake size b r).len.toNat)
    (hsize : k < size) (hlen : 8 + k < (d ++ [b]).length) :
    Memory.read (rxTake size b r).buf k = some (byteAt (d ++ [b]) (8 + k)) := by
  have hL := r.len.isLt
  rw [List.length_append, List.length_singleton] at hlen
  have hcnt : 8 ≤ r.cnt.toNat := not_lt.1 (by rw [h.cnt_lt_iff (by omega)]; omega)
  rw [rxTake_len_of_payload b hcnt] at hk
  have hindex : r.cnt.toNat = 8 + k ↔ d.length = 8 + k := h.cnt_eq_iff (by omega)
  rw [read_rxTake_buf, byteAt_snoc]
  by_cases hnew : d.length = 8 + k
  · rw [if_pos ⟨hindex.2 hnew, hk, hsize⟩, if_pos hnew]
  · rw [if_neg (fun hcell => hnew (hindex.1 hcell.1)), if_neg hnew]
    exact h.cells k hk hsize (by omega)

/-- One more byte (42_decode_validate.md R174 to R180). -/
theorem RxTaken.snoc (h : RxTaken size d r) (b : Byte) : RxTaken size (d ++ [b]) (rxTake size b r) where
  cnt := by
    simp only [rxTake, h.cnt, toNat_sat17, List.length_append, List.length_singleton]
    exact congrArg (BitVec.ofNat 17) (by omega)
  hdrBad := by
    simp only [rxTake, headerWrong_snoc, Bool.or_eq_true, decide_eq_true_eq, h.hdrBad, or_assoc,
      h.cnt_eq_iff (n := 0) (by decide), h.cnt_eq_iff (n := 1) (by decide)]
  ctrl := by simp only [rxTake, byteAt_snoc, h.ctrl, h.cnt_eq_iff (n := 2) (by decide)]
  len := h.len_snoc b
  seq := by
    simp only [rxTake, h.cnt_eq_iff (n := 5) (by decide), h.cnt_eq_iff (n := 6) (by decide)]
    exact (unle16_byteAt_snoc b h.seq).symm
  cmd := by simp only [rxTake, byteAt_snoc, h.cmd, h.cnt_eq_iff (n := 7) (by decide)]
  crc := h.crc_snoc b
  fcs := h.fcs_snoc b
  cells := fun _ hk => h.cells_snoc b hk

/-! ## The verdict -/

/-- The tests of R180 on the registers are those of `decode` on the bytes, and the test of the buffer's size. -/
theorem RxTaken.rxVerdict_eq (h : RxTaken size d r) : rxVerdict size r = blockVerdict size d := by
  have hL := r.len.isLt
  have hshort : (r.cnt.toNat < frameMin) ↔ d.length < frameMin := h.cnt_lt_iff (by decide)
  have hlength : r.cnt.toNat = 10 + (declaredLen d).toNat ↔ prefixLen + (declaredLen d).toNat + fcsLen = d.length := by
    rw [← h.len, h.cnt_eq_iff (by omega), prefixLen, fcsLen]; omega
  by_cases hmin : d.length < frameMin
  · simp [rxVerdict, blockVerdict, decodeFrame, hshort, hmin]
  have hheader : r.hdrBad = true ↔ byteAt d 0 ≠ hdr0 ∨ byteAt d 1 ≠ hdr1 := by
    rw [frameMin] at hmin
    rw [h.hdrBad, headerWrong, and_iff_right (by omega), and_iff_right (by omega)]
  by_cases hhdr : byteAt d 0 ≠ hdr0 ∨ byteAt d 1 ≠ hdr1
  · simp only [rxVerdict, blockVerdict, decodeFrame, hheader, hhdr, hmin, or_true, if_true, if_false]
  by_cases htotal : prefixLen + (declaredLen d).toNat + fcsLen = d.length
  · have hcrc : r.crc = checksum (d.take (d.length - 2)) := by
      rw [h.crc, h.len, ← htotal]; rfl
    have hfcs : r.fcs = trailingField d := by
      rw [h.fcs, h.len, trailingField, ← htotal, prefixLen, fcsLen]
      congr 2
    by_cases hsum : checksum (d.take (d.length - 2)) = trailingField d <;>
      simp [rxVerdict, blockVerdict, decodeFrame, hshort, hmin, hheader, hhdr, h.len, hlength, htotal, hcrc, hfcs, hsum]
  · simp [rxVerdict, blockVerdict, decodeFrame, hshort, hmin, hheader, hhdr, h.len, hlength, htotal]

/-! ## A stretch of accepted bytes -/

theorem RxTaken.accept (h : RxTaken size d (rxBegin r)) (b : Byte) (last : Bool) :
    RxTaken size (d ++ [b]) (rxStep size b last r) := by
  have htake := h.snoc b
  cases last with
  | false => exact htake
  | true => exact { htake with }

theorem RxTaken.accept_result (h : RxTaken size d (rxBegin r)) (b : Byte) :
    (rxStep size b true r).result = blockVerdict size (d ++ [b]) := (h.snoc b).rxVerdict_eq

end

theorem rxSteps_state (size : Nat) {bytes : List StreamByte} {r : RxEngine} (hone : InOneDatagram bytes)
    (hne : bytes ≠ []) (hr : r.state ≠ .done) :
    (rxSteps size bytes r).state = if bytes.getLast?.any Prod.snd = true then .done else .recv := by
  induction bytes generalizing r with
  | nil => exact absurd rfl hne
  | cons c bytes ih =>
    rw [rxSteps_cons]
    by_cases hrest : bytes = []
    · rw [hrest]
      exact rxStep_state size c.1 c.2 hr
    · obtain ⟨hc, honerest⟩ := hone.of_cons hrest
      rw [ih honerest hrest (by rw [rxStep_state size _ _ hr, hc]; simp), List.getLast?_cons_of_ne_nil hrest]

/-- The registers after a stretch of one datagram's bytes, behind those `d` already taken. -/
theorem RxTaken.acceptAll {size : Nat} {d : List Byte} {bytes : List StreamByte} {r : RxEngine}
    (hone : InOneDatagram bytes) (hne : bytes ≠ []) (hr : r.state ≠ .done) (h : RxTaken size d (rxBegin r)) :
    RxTaken size (d ++ bytes.map Prod.fst) (rxSteps size bytes r) ∧
      ((rxSteps size bytes r).state = .done →
        (rxSteps size bytes r).result = blockVerdict size (d ++ bytes.map Prod.fst)) := by
  induction bytes generalizing r d with
  | nil => exact absurd rfl hne
  | cons c bytes ih =>
    obtain ⟨b, last⟩ := c
    rw [rxSteps_cons]
    have hstep := rxStep_state size b last hr
    by_cases hrest : bytes = []
    · rw [hrest]
      refine ⟨h.accept b last, fun hdone => ?_⟩
      cases last with
      | true => exact h.accept_result b
      | false => cases hstep.symm.trans hdone
    · obtain ⟨rfl, honerest⟩ := hone.of_cons hrest
      have hnext : rxBegin (rxStep size b false r) = rxStep size b false r := rxBegin_of_recv hstep
      rw [List.map_cons, List.append_cons]
      exact ih honerest hrest (by simp [hstep]) (hnext.symm ▸ h.accept b false)

end Sys2Proof.Machine
end

section
/-! The RX registers and the source's queue over every step (10_state.md R33, R49 (g); 42_decode_validate.md R184, R185). -/

namespace Sys2Proof.Machine

/-- RX_RELEASE has one word (30_encoding.md R102). -/
theorem eq_of_decodeCommand_rxRelease {w : CmdWord} (h : decodeCommand w = .ok .rxRelease) : w = 0x210000#24 := by
  obtain ⟨hop, harg⟩ := decodeCommand_ok h
  rw [← cmdWord_opOf_argOf w, hop, harg]
  rfl

section
variable {s t : State} {u : Turn} {ts : List Turn}

theorem StepCase.cfg_eq (h : StepCase s ts u t) : t.cfg = s.cfg := by
  cases h with
  | command w ws hin hi v hx => exact hx.cfg_eq
  | _ => rfl

/-- The source's queue loses the bytes taken and no other. -/
theorem StepCase.rxIn_eq (h : StepCase s ts u t) : t.env.rxIn = s.env.rxIn.drop (takenBytes u s).length := by
  by_cases hu : u = .source ∨ u = .datagram
  · cases h with
    | pass _ hnone => rw [hnone]; rfl
    | bytes => rfl
    | _ => simp at hu
  · rw [takenBytes_of_other hu]
    cases h with
    | bytes hsource => exact absurd hsource hu
    | command w ws hin hi v hx => exact (congrArg Env.rxIn hx.env_eq :)
    | _ => rfl

/-- Only a turn of the source takes bytes. -/
theorem source_or_datagram_of_takenBytes (h : takenBytes u s ≠ []) : u = .source ∨ u = .datagram := by
  by_contra hother
  exact h (takenBytes_of_other hother s)

theorem StepCase.rx_of_taken (h : StepCase s ts u t) (htaken : takenBytes u s ≠ []) :
    t.rx = rxSteps s.cfg.payloadMax.val (takenBytes u s) s.rx := by
  have hu := source_or_datagram_of_takenBytes htaken
  cases h with
  | pass _ hnone => exact absurd hnone htaken
  | bytes => rfl
  | _ => simp at hu

/-- With no byte taken only RX_RELEASE and reset write RX registers (43_host_access.md R204). -/
theorem StepCase.rx_of_none_taken (h : StepCase s ts u t) (hnone : takenBytes u s = []) (hu : u ≠ .rstAssert) :
    t.rx = s.rx ∨
      (u = .host ∧ s.rx.state = .done ∧ (∃ ws, s.env.hostIn = 0x210000#24 :: ws) ∧
        t.rx = { s.rx with state := .idle, result := .none }) := by
  cases h with
  | assert => exact absurd rfl hu
  | bytes => rw [hnone]; exact .inl rfl
  | command w ws hin hi v hx =>
    rcases hx.rx_cases with heq | ⟨rfl, hdone, heq⟩
    · exact .inl heq
    · exact .inr ⟨rfl, hdone, ⟨ws, eq_of_decodeCommand_rxRelease hi ▸ hin⟩, heq⟩
  | _ => exact .inl rfl

theorem StepCase.rx_of_assert (h : StepCase s ts .rstAssert t) : t.rx = RxEngine.reset := by
  cases h with
  | assert => rfl
  | pass hu => exact absurd rfl hu
  | bytes hu => simp at hu

theorem StepCase.rx_state_of_taken (h : StepCase s ts u t) (htaken : takenBytes u s ≠ []) :
    t.rx.state = if (takenBytes u s).getLast?.any Prod.snd = true then .done else .recv := by
  rw [h.rx_of_taken htaken]
  exact rxSteps_state _ (inOneDatagram_takenBytes u s) htaken (state_ne_done_of_takenBytes htaken)

/-- The bytes taken stand behind those of the current datagram, or begin one. -/
theorem StepCase.rxHolds_of_taken (h : StepCase s ts u t) (htaken : takenBytes u s ≠ []) {d : List Byte}
    (hd : (s.rx.state = .idle ∧ d = []) ∨ (s.rx.state = .recv ∧ d ≠ [] ∧ RxHolds s.cfg.payloadMax.val d s.rx)) :
    RxHolds s.cfg.payloadMax.val (d ++ (takenBytes u s).map Prod.fst) t.rx ∧
      (t.rx.state = .done → t.rx.result = blockVerdict s.cfg.payloadMax.val (d ++ (takenBytes u s).map Prod.fst)) := by
  have hbegin : RxTaken s.cfg.payloadMax.val d (rxBegin s.rx) := by
    rcases hd with ⟨hidle, rfl⟩ | ⟨hrecv, hne, hholds⟩
    · rw [rxBegin_of_idle hidle]
      exact rxTaken_nil_rxInit _ _
    · rw [rxBegin_of_recv hrecv]
      exact (rxHolds_iff hne).1 hholds
  rw [h.rx_of_taken htaken, rxHolds_iff (by simp [htaken])]
  exact hbegin.acceptAll (inOneDatagram_takenBytes u s) htaken (state_ne_done_of_takenBytes htaken)

/-- The registers always stand for some datagram (10_state.md R49 (g)). -/
theorem StepCase.rxRepresents (h : StepCase s ts u t) (hrep : RxRepresents s) : RxRepresents t := by
  rw [RxRepresents, h.cfg_eq]
  intro hactive
  by_cases htaken : takenBytes u s = []
  · by_cases hu : u = .rstAssert
    · subst hu
      rw [h.rx_of_assert] at hactive
      exact absurd rfl hactive
    · rcases h.rx_of_none_taken htaken hu with heq | ⟨-, -, -, heq⟩
      · rw [heq] at hactive ⊢
        exact hrep hactive
      · rw [heq] at hactive
        exact absurd rfl hactive
  · obtain ⟨d, hd⟩ : ∃ d, (s.rx.state = .idle ∧ d = []) ∨
        (s.rx.state = .recv ∧ d ≠ [] ∧ RxHolds s.cfg.payloadMax.val d s.rx) := by
      cases hstate : s.rx.state with
      | idle => exact ⟨[], .inl ⟨rfl, rfl⟩⟩
      | recv =>
        obtain ⟨d, hne, hholds, -⟩ := hrep (by simp [hstate])
        exact ⟨d, .inr ⟨rfl, hne, hholds⟩⟩
      | done => exact absurd hstate (state_ne_done_of_takenBytes htaken)
    exact ⟨_, by simp [htaken], h.rxHolds_of_taken htaken hd⟩

end

/-- Settles O42: each clause is what every case of a step does to the RX engine and the source's queue. -/
theorem rxRegistersRepresentDatagram : Obligations.RxRegistersRepresentDatagram := by
  intro s t u ts hturns hstep
  have h := step_cases hturns hstep
  refine ⟨h.rxIn_eq, fun htaken => ⟨h.rx_state_of_taken htaken, fun d => h.rxHolds_of_taken htaken⟩,
    fun hnone hu => (h.rx_of_none_taken hnone hu).imp_right fun ⟨hhost, hdone, ⟨ws, hin⟩, heq⟩ => ?_, h.rxRepresents⟩
  exact ⟨hhost, hdone, by rw [hin]; rfl, heq⟩

/-- Settles O43: bytes taken leave RECV or DONE and are taken outside DONE; without them only a release or reset moves
`rx_state`. -/
theorem rxTransitions : Obligations.RxTransitions := by
  intro s t u ts hturns hstep hmoved
  have h := step_cases hturns hstep
  by_cases hu : u = .rstAssert
  · subst hu
    exact .inr (.inr ⟨rfl, h.rx_of_assert⟩)
  by_cases htaken : takenBytes u s = []
  · rcases h.rx_of_none_taken htaken hu with heq | ⟨hhost, hdone, hin, heq⟩
    · exact absurd (congrArg RxEngine.state heq) hmoved
    · exact .inr (.inl ⟨hhost, hdone, by rw [heq], by rw [heq], hin⟩)
  · refine .inl ⟨source_or_datagram_of_takenBytes htaken, ?_⟩
    have hnext : t.rx.state = .done ∨ t.rx.state = .recv := by
      rw [h.rx_state_of_taken htaken]
      split <;> simp
    cases hstate : s.rx.state with
    | idle => exact .inl ⟨rfl, hnext.symm⟩
    | recv => exact .inr ⟨rfl, hnext.resolve_right (hstate ▸ hmoved)⟩
    | done => exact absurd hstate (state_ne_done_of_takenBytes htaken)

end Sys2Proof.Machine
end

section
/-! Who writes which register (10_state.md R24 to R29), and the fields and ports a reader sees (R44 to R48). -/

namespace Sys2Proof.Machine

/-! ## Frames in flight, `crc_acc` and `err` -/

/-- Settles O29: in SEND no staging command runs, and an emitted byte writes `tx_crc`, `tx_idx` and `tx_state` only. -/
theorem frameInFlightImmutable : Obligations.FrameInFlightImmutable := by
  intro s t hsend hnoreset hstep
  obtain ⟨u, ts, hturns, -⟩ := step_next hstep
  have hkept : t.tx = s.tx → t.tx.seq = s.tx.seq ∧ t.tx.len = s.tx.len ∧ t.tx.cmd = s.tx.cmd ∧ t.tx.buf = s.tx.buf :=
    fun h => by simp [h]
  cases step_cases hturns hstep with
  | assert => exact absurd (congrArg List.head? hturns) hnoreset
  | command w ws hin hi v hx =>
    rcases hx.tx_cases with heq | ⟨hidle, -⟩
    · exact hkept heq
    · cases hsend.symm.trans hidle
  | emit => exact ⟨rfl, rfl, rfl, rfl⟩
  | _ => exact hkept rfl

/-- Settles O54: of the cases of a step only reset and a command touch `crc_acc`, and of the commands only two. -/
theorem crcAccWriters : Obligations.CrcAccWriters := by
  intro s t u ts hturns hstep hchanged
  cases step_cases hturns hstep with
  | assert => exact .inl ⟨rfl, rfl⟩
  | command w ws hin hi v hx =>
    refine .inr ⟨rfl, w, ws, hin, ?_⟩
    rcases hx.crcAcc_cases with heq | ⟨rfl, heq⟩ | ⟨b, rfl, heq⟩
    · exact absurd heq hchanged
    · exact .inl ⟨hi, heq⟩
    · exact .inr ⟨b, hi, heq⟩
  | _ => exact absurd rfl hchanged

/-- Settles O57: a command that takes no fault leaves `err` or is CLR_ERR, and a fault changes nothing but its bit and
the responses. -/
theorem errIsSticky : Obligations.ErrIsSticky := by
  intro s t u ts hturns hstep
  cases step_cases hturns hstep with
  | assert => exact .inr (.inl ⟨rfl, rfl⟩)
  | fault w ws hin c => exact .inr (.inr ⟨rfl, w, ws, hin, .inr ⟨c, rfl, rfl, rfl, rfl, rfl⟩⟩)
  | command w ws hin hi v hx =>
    rcases hx.err_cases with heq | ⟨rfl, heq⟩
    · exact .inl heq
    · exact .inr (.inr ⟨rfl, w, ws, hin, .inl ⟨hi, heq⟩⟩)
  | _ => exact .inl rfl

/-! ## The closed gate (42_decode_validate.md R187, 43_host_access.md R206) -/

/-- An outcome with what the RX engine holds replaced in its next state. -/
def withRxContentOutcome (r' : RxEngine) : Host.Outcome State Fault Refusal → Host.Outcome State Fault Refusal
  | .next t => .next (withRxContent r' t)
  | .fault f => .fault f
  | .refused f => .refused f

theorem whenTxIdle_withRxContent (r' : RxEngine) (s : State) {k k' : Host.Outcome State Fault Refusal}
    (hk : k' = withRxContentOutcome r' k) :
    whenTxIdle (withRxContent r' s) k' = withRxContentOutcome r' (whenTxIdle s k) := by
  cases hstate : s.tx.state with
  | send => rw [whenTxIdle_send k hstate, whenTxIdle_send k' (s := withRxContent r' s) hstate]; rfl
  | idle => rw [whenTxIdle_idle k hstate, whenTxIdle_idle k' (s := withRxContent r' s) hstate, hk]

theorem whenGateOpen_withRxContent (r' : RxEngine) {s : State} (hclosed : gateOpen s = false)
    (k k' : Host.Outcome State Fault Refusal) :
    whenGateOpen (withRxContent r' s) k' = withRxContentOutcome r' (whenGateOpen s k) := by
  rw [whenGateOpen_closed k hclosed, whenGateOpen_closed k' (s := withRxContent r' s) hclosed]
  rfl

/-- The registers outside the gate show of the RX engine its state and verdict only (10_state.md R46). -/
theorem regValue_withRxContent (r' : RxEngine) (s : State) {r : RegName} (h : gated r = false) :
    regValue (withRxContent r' s) r = regValue s r := by
  cases r with
  | status | crcAcc | seq | txLen => rfl
  | rxCmd | rxLen | rxSeq | rxCtrl => cases h

/-- With the gate closed a command does the same whatever the RX engine holds. -/
theorem exec_withRxContent (r' : RxEngine) {s : State} {i : Instr} (hclosed : gateOpen s = false)
    (hi : i.isCommand = true) : exec i (withRxContent r' s) = withRxContentOutcome r' (exec i s) := by
  cases i with
  | nop => rfl
  | crcClear => rfl
  | crcByte => rfl
  | clrErr => rfl
  | txClear => exact whenTxIdle_withRxContent r' s rfl
  | txSend => exact whenTxIdle_withRxContent r' s rfl
  | setSeq => exact whenTxIdle_withRxContent r' s rfl
  | txPush b =>
    refine whenTxIdle_withRxContent r' s ?_
    by_cases hfull : s.tx.len.toNat = s.cfg.payloadMax.val
    · rw [if_pos (by exact hfull), if_pos (by exact hfull)]
      rfl
    · rw [if_neg (by exact hfull), if_neg (by exact hfull)]
      simp only [withRxContent]
      cases writeCell s.cfg.payloadMax.val s.tx.buf s.tx.len.toNat b <;> rfl
  | rxRead v => exact whenGateOpen_withRxContent r' hclosed _ _
  | rxRelease =>
    by_cases hheld : s.rx.state ≠ .done
    · rw [exec, execRxRelease, exec, execRxRelease, if_pos (by exact hheld), if_pos (by exact hheld)]
      rfl
    · rw [exec, execRxRelease, exec, execRxRelease, if_neg (by exact hheld), if_neg (by exact hheld)]
      rfl
  | get n =>
    simp only [exec, execGet]
    split
    · rfl
    · split
      next => exact whenGateOpen_withRxContent r' hclosed _ _
      next hungated => rw [regValue_withRxContent r' s (by simpa using hungated)]; rfl
  | frame f => cases hi
  | autoCenter => cases hi

/-- Settles O28: the two runs have one outcome up to what the RX engine holds. -/
theorem closedGateHidesDatagram : Obligations.ClosedGateHidesDatagram := by
  intro s t r' i hclosed hi hexec
  rw [exec_withRxContent r' hclosed hi, hexec, withRxContentOutcome]

/-! ## The output ports -/

/-- By the invariant there is a byte to emit in SEND (41_encode.md R158). -/
theorem TxInv.exists_txByteAt {size : Nat} {t : TxEngine} (h : TxInv size t) (hsend : t.state = .send) :
    ∃ b, txByteAt size t = .ok b := by
  obtain ⟨hlen, -, hidx, hcells, -, -⟩ := h
  replace hidx := hidx hsend
  by_cases h8 : t.idx.toNat < 8
  · have hprefix := txByteAt_prefix (size := size) h8
    rw [List.getElem?_eq_getElem (by exact h8)] at hprefix
    cases hb : txByteAt size t with
    | ok b => exact ⟨b, rfl⟩
    | error f => rw [hb] at hprefix; cases hprefix
  · rw [txByteAt_of_ge (by omega)]
    split
    next hpayload =>
      obtain ⟨b, hb⟩ := Option.isSome_iff_exists.1 (hcells (t.idx.toNat - 8) (by omega))
      exact ⟨b, readCell_ok (by omega) hb⟩
    next =>
      split
      · exact ⟨_, rfl⟩
      · exact ⟨_, if_pos (by omega)⟩

theorem TxInv.txByteAt_of_idle {size : Nat} {t : TxEngine} (h : TxInv size t) (hidle : t.state = .idle) :
    txByteAt size t = .ok hdr0 := by
  obtain ⟨-, hidx, -⟩ := h
  simp [txByteAt, hidx hidle]

/-- Settles O59: the levels are read off the registers, and by the invariant `tx_data` is the byte of R158. -/
theorem outputPorts : Obligations.OutputPorts := by
  intro s
  refine ⟨decide_eq_true_iff, decide_eq_true_iff, decide_eq_true_iff, decide_eq_true_iff, decide_eq_true_iff,
    decide_eq_true_iff, fun hinv hidle => ?_, fun hinv hsend => ?_⟩
  · rw [txDataPort, hinv.1.txByteAt_of_idle hidle]
    rfl
  · obtain ⟨b, hb⟩ := hinv.1.exists_txByteAt hsend
    exact ⟨b, _, by rw [txDataPort, hb]; rfl, step_sink_of_send rfl rfl hsend hb, rfl⟩

/-! ## STATUS, SET_SEQ and reset -/

/-- STATUS bit by bit (10_state.md R44). -/
theorem getLsbD_statusWord (s : State) (i : Nat) :
    (statusWord s).getLsbD i =
      if i < 2 then (rxStateCode s.rx.state).getLsbD i
      else if i < 4 then (rxResultCode s.rx.result).getLsbD (i - 2)
      else if i < 5 then (txStateCode s.tx.state).getLsbD (i - 4)
      else if i < 8 then false
      else s.err.getLsbD (i - 8) := by
  have happend : (statusWord s).getLsbD i =
      ((0 : BitVec 4) ++ s.err ++ (0 : BitVec 3) ++ txStateCode s.tx.state ++ rxResultCode s.rx.result ++
        rxStateCode s.rx.state : BitVec (4 + 4 + 3 + 1 + 2 + 2)).getLsbD i := rfl
  have htop : ((0 : BitVec 4) ++ s.err).getLsbD (i - 8) = s.err.getLsbD (i - 8) := by
    rw [BitVec.getLsbD_append]
    split
    · rfl
    · rw [BitVec.getLsbD_of_ge s.err _ (by omega)]
      simp
  have h4 : i - 2 < 2 ↔ i < 4 := by omega
  have h5 : i - 4 < 1 ↔ i < 5 := by omega
  have h8 : i - 5 < 3 ↔ i < 8 := by omega
  rw [happend, BitVec.getLsbD_append, BitVec.getLsbD_append, BitVec.getLsbD_append, BitVec.getLsbD_append]
  simp only [Nat.sub_sub, Nat.reduceAdd, h4, h5, h8, htop]
  rw [show (0 : BitVec 3).getLsbD (i - 5) = false from BitVec.getLsbD_zero]

/-- The fields of STATUS by their codes (10_state.md R44). -/
theorem statusWord_fields (s : State) :
    (statusWord s).extractLsb' 0 2 = rxStateCode s.rx.state ∧
    (statusWord s).extractLsb' 2 2 = rxResultCode s.rx.result ∧
    (statusWord s).extractLsb' 4 1 = txStateCode s.tx.state ∧
    (statusWord s).extractLsb' 5 3 = 0 ∧
    (statusWord s).extractLsb' 8 4 = s.err ∧
    (statusWord s).extractLsb' 12 4 = 0 := by
  refine ⟨?_, ?_, ?_, ?_, ?_, ?_⟩ <;> ext i hi <;> rw [BitVec.getElem_extractLsb', getLsbD_statusWord]
  · simp [hi]
  · rw [if_neg (by omega), if_pos (by omega), Nat.add_sub_cancel_left, BitVec.getLsbD_eq_getElem]
  · rw [if_neg (by omega), if_neg (by omega), if_pos (by omega), Nat.add_sub_cancel_left, BitVec.getLsbD_eq_getElem]
  · rw [if_neg (by omega), if_neg (by omega), if_neg (by omega), if_pos (by omega)]; simp
  · rw [if_neg (by omega), if_neg (by omega), if_neg (by omega), if_neg (by omega), Nat.add_sub_cancel_left,
      BitVec.getLsbD_eq_getElem]
  · rw [if_neg (by omega), if_neg (by omega), if_neg (by omega), if_neg (by omega), BitVec.getLsbD_of_ge _ _ (by omega)]
    simp

/-- Settles O27: the codes of the three states are those of the statement. -/
theorem statusLayout : Obligations.StatusLayout := by
  intro s
  obtain ⟨hrxs, hrxr, htxb, hzero, herr, htop⟩ := statusWord_fields s
  refine ⟨rfl, hrxs.trans ?_, hrxr.trans ?_, htxb.trans ?_, hzero, herr, htop⟩
  · cases s.rx.state <;> rfl
  · cases s.rx.result <;> rfl
  · cases s.tx.state <;> rfl

/-- Settles O22, by the two states of the TX engine. -/
theorem setSeqWritesSeq : Obligations.SetSeqWritesSeq := fun _ _ =>
  ⟨rfl, whenTxIdle_send _, whenTxIdle_idle _⟩

/-- Settles O49: the reset state is written out register by register. -/
theorem resetRegisters : Obligations.ResetRegisters := by
  unfold Obligations.ResetRegisters
  decide

/-- While `rst` is asserted the turn of an agent passes (70_reset_and_hazards.md R280). -/
theorem takeTurn_of_rst {s : State} (hrst : s.env.rst = true) {u : Turn}
    (hu : u ∈ [Turn.host, .source, .datagram, .sink]) : takeTurn u s = .next s := by
  cases u with
  | rstAssert => simp at hu
  | rstRelease => simp at hu
  | host => exact if_pos hrst
  | source => exact if_pos hrst
  | datagram => exact if_pos hrst
  | sink => exact if_pos hrst

/-- Settles O50: the turns of `rst` are taken in every state, and no other while it is asserted. -/
theorem resetAsserted : Obligations.ResetAsserted := fun s _ ts =>
  ⟨rfl, fun hrst hu => takeTurn_of_rst (s := afterTurn ts s) hrst hu, rfl⟩

end Sys2Proof.Machine
end

section
/-! PROOFS. When the RxByte step is enabled and what it writes (42_decode_validate.md R172). -/

namespace Sys2Proof.Machine

/-- With `rst` released, a step on the source's turn is that turn. -/
theorem step_eq_sourceTurn {s : State} {ts : List Turn} (hrst : s.env.rst = false)
    (hturns : s.env.turns = .source :: ts) : step s = sourceTurn (afterTurn ts s) := by
  rw [step_eq_takeTurn hturns]
  exact if_neg (by simp [hrst])

/-- One byte of the source's queue accepted: one step of the RX engine, and the rest of the queue left. -/
theorem afterBytes_take_one {s : State} {b : Byte} {last : Bool} {bytes : List StreamByte}
    (hin : s.env.rxIn = (b, last) :: bytes) :
    afterBytes (s.env.rxIn.take 1) s =
      { s with rx := rxStep s.cfg.payloadMax.val b last s.rx, env := { s.env with rxIn := bytes } } := by
  simp [afterBytes, hin, rxSteps_cons]

/-- Settles O38: in DONE the source's turn passes, and outside it the turn takes exactly the byte presented. -/
theorem rxByteEnabled : Obligations.RxByteEnabled := by
  intro s ts b last bytes hrst hturns hin
  rw [step_eq_sourceTurn hrst hturns]
  refine ⟨fun hdone => ?done, fun hready => ?ready⟩
  case done => exact sourceTurn_of_done (s := afterTurn ts s) hdone
  case ready =>
    rw [sourceTurn_eq (s := afterTurn ts s) hready, afterBytes_take_one (s := afterTurn ts s) hin]
    rfl

end Sys2Proof.Machine
end

section
/-! The decoder and the encoder as one relation (30_encoding.md R90, R100 to R103): on either port a word or byte
sequence decodes to an instruction exactly when the instruction is well formed and encodes to it. -/

namespace Sys2Proof

/-! ## The command port -/

/-- A word is one operation with one operand field (30_encoding.md R100). -/
theorem cmdWord_eq_iff {op : Byte} {arg : Half} {w : CmdWord} :
    cmdWord op arg = w ↔ opOf w = op ∧ argOf w = arg := by
  constructor
  · rintro rfl
    exact ⟨opOf_cmdWord op arg, argOf_cmdWord op arg⟩
  · rintro ⟨rfl, rfl⟩
    exact cmdWord_opOf_argOf w

/-- A word of format B is one operation, a zero byte and one byte operand (30_encoding.md R101). -/
theorem cmdWord_byteArg_eq_iff {op imm8 : Byte} {w : CmdWord} :
    cmdWord op (byteArg imm8) = w ↔ opOf w = op ∧ argHighOf w = 0 ∧ imm8 = imm8Of w := by
  constructor
  · rintro rfl
    exact ⟨opOf_cmdWord op _, argHighOf_byteArg op imm8, (imm8Of_byteArg op imm8).symm⟩
  · rintro ⟨hop, hhigh, rfl⟩
    exact cmdWord_eq_iff.2 ⟨hop, argOf_eq_byteArg hhigh⟩

namespace Machine

/-- The fields of a word are those of the instruction it encodes (30_encoding.md R101, R102). -/
theorem commandWord_iff {w : CmdWord} {i : Instr} :
    CommandWord w i ↔ i.wellFormed = true ∧ Sys2Proof.encode i = .command w := by
  cases i with
  | nop | crcClear | txClear | rxRelease | clrErr =>
    simp [CommandWord, Instr.wellFormed, Sys2Proof.encode, cmdWord_eq_iff]
  | crcByte b | txPush b | txSend b =>
    simp [CommandWord, Instr.wellFormed, Sys2Proof.encode, cmdWord_byteArg_eq_iff]
  | setSeq v | rxRead v =>
    simp [CommandWord, Instr.wellFormed, Sys2Proof.encode, cmdWord_eq_iff, eq_comm (a := v)]
  | get n =>
    simp only [CommandWord, Instr.wellFormed, Sys2Proof.encode, decide_eq_true_eq, Encoded.command.injEq,
      cmdWord_byteArg_eq_iff]
    tauto
  | frame f | autoCenter => simp [CommandWord, Sys2Proof.encode]

/-- The decoder finds every word of R102 that passes the tests of R103. -/
theorem CommandWord.decodeCommand_eq {w : CmdWord} {i : Instr} (h : CommandWord w i) : decodeCommand w = .ok i := by
  cases i with
  | nop | crcClear | txClear | rxRelease | clrErr =>
    obtain ⟨hop, harg⟩ := h
    simp [decodeCommand, formatN, hop, harg]
  | crcByte b | txPush b | txSend b =>
    obtain ⟨hop, hhigh, rfl⟩ := h
    simp [decodeCommand, formatB, hop, hhigh]
  | setSeq v | rxRead v =>
    obtain ⟨hop, rfl⟩ := h
    simp [decodeCommand, formatH, hop]
  | get n =>
    obtain ⟨hop, hhigh, rfl, hn⟩ := h
    simp [decodeCommand, formatB, decodeGet, hop, hhigh, hn]
  | frame f | autoCenter => exact h.elim

theorem decodeCommand_eq_ok_iff {w : CmdWord} {i : Instr} : decodeCommand w = .ok i ↔ CommandWord w i :=
  ⟨decodeCommand_ok, CommandWord.decodeCommand_eq⟩

end Machine

/-! ## The wire -/

theorem WireFrame.wellFormed_iff {f : WireFrame} :
    f.wellFormed = true ↔ f.len.toNat = f.payload.length ∧ f ≠ autoCenterFrame := by
  simp [WireFrame.wellFormed]

/-- A frame whose length field is the length of its payload is read off its bytes (30_encoding.md R90). -/
theorem decodeWire_frameBytes {f : WireFrame} (h : f.len.toNat = f.payload.length) :
    decodeWire (frameBytes f) = .ok (wireInstr f) := by
  simp [decodeWire, frameBytes, le16, h, fcsLen]

theorem frameBytes_autoCenterFrame : frameBytes autoCenterFrame = autoCenterBytes := by decide

theorem decodeWire_eq_ok_iff {bytes : List Byte} {i : Instr} :
    decodeWire bytes = .ok i ↔ i.wellFormed = true ∧ encode i = .wire bytes := by
  constructor
  · intro h
    rcases decodeWire_bytes h with ⟨f, rfl, rfl, hwf⟩ | ⟨rfl, rfl⟩
    · exact ⟨hwf, rfl⟩
    · exact ⟨rfl, rfl⟩
  · rintro ⟨hwf, henc⟩
    cases i with
    | frame f =>
      obtain rfl := Encoded.wire.inj henc
      obtain ⟨hlen, hne⟩ := WireFrame.wellFormed_iff.1 hwf
      rw [decodeWire_frameBytes hlen, wireInstr_of_ne hne]
    | autoCenter =>
      obtain rfl := Encoded.wire.inj henc
      exact decodeWire_frameBytes (f := autoCenterFrame) rfl
    | _ => cases henc

/-! ## Both ports -/

theorem decode_eq_ok_iff {e : Encoded} {i : Instr} : decode e = .ok i ↔ i.wellFormed = true ∧ encode i = e := by
  cases e with
  | command w => exact Machine.decodeCommand_eq_ok_iff.trans Machine.commandWord_iff
  | wire bytes => exact decodeWire_eq_ok_iff

/-- Settles O2: an instruction's encoding is one of the words and byte sequences that decode to it. -/
theorem decodeOfEncode : Obligations.DecodeOfEncode := fun _ hwf => decode_eq_ok_iff.2 ⟨hwf, rfl⟩

/-- Settles O3: the other direction of the same relation. -/
theorem encodeOfDecode : Obligations.EncodeOfDecode := fun _ _ => decode_eq_ok_iff.1

/-- Settles O1: the words and bytes written out are read by the decoder as the table says. -/
theorem specWordsDecode : Obligations.SpecWordsDecode :=
  ⟨rfl, rfl, rfl, rfl, rfl, rfl, rfl, rfl, rfl, rfl, rfl⟩

end Sys2Proof
end

section
/-! Which words are illegal, and the rows of the opcode map (30_encoding.md R102, R103). -/

namespace Sys2Proof.Machine

/-! ## Illegal words -/

/-- A word placed for the host is the one its next step takes. -/
theorem step_placeCommand (w : CmdWord) (s : State) : step (placeCommand w s) = hostWord w (releaseReset s) := rfl

theorem hostWord_of_decode_ok {w : CmdWord} {i : Instr} (h : decodeCommand w = .ok i) (s : State) :
    hostWord w s = exec i s := by
  simp only [hostWord, Sys2Proof.decode, h]

theorem hostWord_of_decode_error {w : CmdWord} {r : DecodeReject} (h : decodeCommand w = .error r) (s : State) :
    hostWord w s = .next (takeFault .illegalCommand s) := by
  simp only [hostWord, Sys2Proof.decode, h]

/-- A word that is no instruction's faults IllegalCommand (43_host_access.md R201). -/
theorem illegalWord_of_forall_not {w : CmdWord} (h : ∀ i, ¬ CommandWord w i) : IllegalWord w := by
  intro s
  rw [step_placeCommand]
  cases hw : decodeCommand w with
  | ok i => exact absurd (decodeCommand_ok hw) (h i)
  | error r => exact hostWord_of_decode_error hw _

/-- The words of R103: another operation than the eleven of R102, or an operand its format does not allow. -/
def IllegalFields (w : CmdWord) : Prop :=
  opOf w ∉ [0x00#8, 0x01#8, 0x02#8, 0x10#8, 0x11#8, 0x12#8, 0x13#8, 0x20#8, 0x21#8, 0x30#8, 0x31#8] ∨
  (opOf w ∈ [0x00#8, 0x01#8, 0x10#8, 0x21#8, 0x31#8] ∧ argOf w ≠ 0) ∨
  (opOf w ∈ [0x02#8, 0x11#8, 0x12#8, 0x30#8] ∧ argHighOf w ≠ 0) ∨
  (opOf w = 0x30#8 ∧ 8 ≤ (imm8Of w).toNat)

theorem CommandWord.not_illegalFields {w : CmdWord} {i : Instr} (h : CommandWord w i) : ¬ IllegalFields w := by
  cases i with
  | nop | crcClear | txClear | rxRelease | clrErr =>
    obtain ⟨hop, harg⟩ := h
    simp [IllegalFields, hop, harg]
  | crcByte b | txPush b | txSend b =>
    obtain ⟨hop, hhigh, -⟩ := h
    simp [IllegalFields, hop, hhigh]
  | setSeq v | rxRead v =>
    obtain ⟨hop, -⟩ := h
    simp [IllegalFields, hop]
  | get n =>
    obtain ⟨hop, hhigh, rfl, hn⟩ := h
    simp [IllegalFields, hop, hhigh, hn]
  | frame f | autoCenter => exact h.elim

theorem exists_commandWord {w : CmdWord} (h : ¬ IllegalFields w) : ∃ i, CommandWord w i := by
  simp only [IllegalFields, not_or, not_not, not_and, ne_eq, not_le] at h
  obtain ⟨hop, hN, hB, hget⟩ := h
  simp only [List.mem_cons, List.not_mem_nil, or_false] at hop
  rcases hop with hop | hop | hop | hop | hop | hop | hop | hop | hop | hop | hop
  · exact ⟨.nop, hop, hN (by simp [hop])⟩
  · exact ⟨.crcClear, hop, hN (by simp [hop])⟩
  · exact ⟨.crcByte _, hop, hB (by simp [hop]), rfl⟩
  · exact ⟨.txClear, hop, hN (by simp [hop])⟩
  · exact ⟨.txPush _, hop, hB (by simp [hop]), rfl⟩
  · exact ⟨.txSend _, hop, hB (by simp [hop]), rfl⟩
  · exact ⟨.setSeq _, hop, rfl⟩
  · exact ⟨.rxRead _, hop, rfl⟩
  · exact ⟨.rxRelease, hop, hN (by simp [hop])⟩
  · exact ⟨.get _, hop, hB (by simp [hop]), rfl, hget hop⟩
  · exact ⟨.clrErr, hop, hN (by simp [hop])⟩

/-- Settles O4: the illegal fields are those of no instruction's word. -/
theorem illegalWordsFault : Obligations.IllegalWordsFault := by
  intro w op illegal
  refine ⟨fun hillegal => ?illegal, fun hlegal => ?legal⟩
  case illegal =>
    have hnone : ∀ i, ¬ CommandWord w i := fun i hi => hi.not_illegalFields hillegal
    exact ⟨illegalWord_of_forall_not hnone, fun i hi => hnone i (decodeCommand_ok hi)⟩
  case legal =>
    obtain ⟨i, hi⟩ := exists_commandWord hlegal
    exact ⟨i, hi.decodeCommand_eq, decodeCommand_isCommand hi.decodeCommand_eq⟩

/-! ## The rows of the opcode map -/

theorem opOf_and (w m : CmdWord) : opOf (w &&& m) = opOf w &&& opOf m := BitVec.extractLsb'_and

/-- Every mask keeps the whole operation, so a row covers the words of its operation only. -/
theorem opOf_of_covers {r : HostRow} (hr : r ∈ hostRows) {w : CmdWord} (h : r.covers w = true) : opOf w = r.op := by
  have hmask : opOf r.mask = BitVec.allOnes 8 := (by decide : ∀ r ∈ hostRows, opOf r.mask = BitVec.allOnes 8) r hr
  have hmatch : w &&& r.mask = r.pattern := eq_of_beq h
  have hop := congrArg opOf hmatch
  rwa [opOf_and, hmask, BitVec.and_allOnes, HostRow.pattern, opOf_cmdWord] at hop

/-- No two rows have one operation. -/
theorem hostRow_eq_of_op_eq : ∀ r ∈ hostRows, ∀ q ∈ hostRows, r.op = q.op → r = q := by decide

theorem covers_maskN (mnemonic : String) (op : Byte) : HostRow.covers ⟨mnemonic, op, maskN⟩ (cmdWord op 0) = true :=
  beq_iff_eq.2 (BitVec.and_allOnes (x := cmdWord op 0))

theorem covers_maskB (mnemonic : String) (op imm8 : Byte) :
    HostRow.covers ⟨mnemonic, op, maskB⟩ (cmdWord op (byteArg imm8)) = true :=
  beq_iff_eq.2 (Laws.TableRow.cmdWord_byteArg_mask op imm8)

theorem covers_maskH (mnemonic : String) (op : Byte) (imm16 : Half) :
    HostRow.covers ⟨mnemonic, op, maskH⟩ (cmdWord op imm16) = true :=
  beq_iff_eq.2 (Laws.TableRow.cmdWord_mask op imm16)

/-- The row of each command covers its words, with the mask of its format. -/
theorem CommandWord.exists_covers {w : CmdWord} {i : Instr} (h : CommandWord w i) :
    ∃ r ∈ hostRows, r.covers w = true := by
  obtain ⟨-, henc⟩ := commandWord_iff.1 h
  have hcover {r : HostRow} {v : CmdWord} (hr : r ∈ hostRows) (hrv : r.covers v = true)
      (hv : Encoded.command v = .command w) : ∃ r ∈ hostRows, r.covers w = true :=
    ⟨r, hr, Encoded.command.inj hv ▸ hrv⟩
  cases i with
  | nop => exact hcover (by decide) (covers_maskN "NOP" 0x00) henc
  | crcClear => exact hcover (by decide) (covers_maskN "CRC_CLEAR" 0x01) henc
  | crcByte b => exact hcover (by decide) (covers_maskB "CRC_BYTE" 0x02 b) henc
  | txClear => exact hcover (by decide) (covers_maskN "TX_CLEAR" 0x10) henc
  | txPush b => exact hcover (by decide) (covers_maskB "TX_PUSH" 0x11 b) henc
  | txSend b => exact hcover (by decide) (covers_maskB "TX_SEND" 0x12 b) henc
  | setSeq v => exact hcover (by decide) (covers_maskH "SET_SEQ" 0x13 v) henc
  | rxRead v => exact hcover (by decide) (covers_maskH "RX_READ" 0x20 v) henc
  | rxRelease => exact hcover (by decide) (covers_maskN "RX_RELEASE" 0x21) henc
  | get b => exact hcover (by decide) (covers_maskB "GET" 0x30 b) henc
  | clrErr => exact hcover (by decide) (covers_maskN "CLR_ERR" 0x31) henc
  | frame f => exact h.elim
  | autoCenter => exact h.elim

/-- Settles O5: a row fixes the operation, and no operation has two rows. -/
theorem opcodePatternsDisjoint : Obligations.OpcodePatternsDisjoint := by
  intro w
  refine ⟨fun r hr q hq hrw hqw => ?_, fun i hi => ?_⟩
  · exact hostRow_eq_of_op_eq r hr q hq ((opOf_of_covers hr hrw).symm.trans (opOf_of_covers hq hqw))
  · obtain ⟨r, hr, hrw⟩ := (decodeCommand_ok hi).exists_covers
    exact ⟨r, hr, hrw, (opOf_of_covers hr hrw).symm⟩

end Sys2Proof.Machine
end

section
/-! The HostCmd step, its responses, and runs of host commands (30_encoding.md R104, R107; 43_host_access.md R201). -/

namespace Sys2Proof.Machine

/-! ## One HostCmd step -/

/-- Settles O13: each cause's bit and code, and the answer of a success, are written out in the model. -/
theorem faultMechanism : Obligations.FaultMechanism := fun _ => ⟨rfl, rfl, rfl, rfl, fun _ => rfl⟩

/-- With `rst` released, a step on the host's turn executes the word the host presents. -/
theorem step_eq_hostWord {s : State} {ts : List Turn} {w : CmdWord} {ws : List CmdWord} (hrst : s.env.rst = false)
    (hturns : s.env.turns = .host :: ts) (hin : s.env.hostIn = w :: ws) :
    step s = hostWord w (afterWord ts ws s) := by
  rw [step_eq_takeTurn hturns, takeTurn, if_neg (by simp [hrst]), hostTurn]
  simp only [afterTurn_env, hin]
  rfl

theorem whenTxIdle_exists_next {s : State} {k : Host.Outcome State Fault Refusal}
    (h : s.tx.state = .idle → ∃ t, k = .next t) : ∃ t, whenTxIdle s k = .next t := by
  unfold whenTxIdle
  split
  · exact ⟨_, rfl⟩
  · exact h (txState_ne_send.1 ‹_›)

theorem whenGateOpen_exists_next {s : State} {k : Host.Outcome State Fault Refusal}
    (h : gateOpen s = true → ∃ t, k = .next t) : ∃ t, whenGateOpen s k = .next t := by
  unfold whenGateOpen
  split
  · exact h ‹_›
  · exact ⟨_, rfl⟩

/-- By the invariant a command never stops the machine: TX_PUSH stores into a cell that exists and RX_READ loads from
one that has been written (60_exceptions.md R252, R254). -/
theorem exec_command_exists_next {i : Instr} {s : State} (hi : i.isCommand = true) (hinv : BlockInv s) :
    ∃ t, exec i s = .next t := by
  obtain ⟨⟨hlen, -⟩, -, hcells, hok, -⟩ := hinv
  cases i with
  | nop | crcClear | crcByte b | clrErr => exact ⟨_, rfl⟩
  | txClear | txSend b | setSeq v => exact whenTxIdle_exists_next fun _ => ⟨_, rfl⟩
  | txPush b =>
    refine whenTxIdle_exists_next fun _ => ?_
    split
    next => exact ⟨_, rfl⟩
    next hroom =>
      rw [writeCell_ok_iff.2 ⟨lt_of_le_of_ne hlen hroom, rfl⟩]
      exact ⟨_, rfl⟩
  | rxRead v =>
    refine whenGateOpen_exists_next fun hopen => ?_
    obtain ⟨hdone, hresult⟩ := gateOpen_iff.1 hopen
    obtain ⟨hcnt, hfits⟩ := hok hresult
    split
    next => exact ⟨_, rfl⟩
    next hindex =>
      obtain ⟨b, hb⟩ := Option.isSome_iff_exists.1
        (hcells (by simp [hdone]) v.toNat (by omega) (by omega) (by omega))
      rw [readCell_ok (by omega) hb]
      exact ⟨_, rfl⟩
  | rxRelease =>
    simp only [exec, execRxRelease]
    split <;> exact ⟨_, rfl⟩
  | get n =>
    simp only [exec, execGet]
    split
    · exact ⟨_, rfl⟩
    · split
      · exact whenGateOpen_exists_next fun _ => ⟨_, rfl⟩
      · exact ⟨_, rfl⟩
  | frame f | autoCenter => cases hi

/-- A command adds one response to the port and leaves the ports otherwise alone (30_encoding.md R104). -/
theorem exec_command_env {i : Instr} {s t : State} (hi : i.isCommand = true) (h : exec i s = .next t) :
    ∃ r, t.env = { s.env with respOut := s.env.respOut ++ [r] } := by
  rcases exec_command_next hi h with ⟨c, rfl⟩ | ⟨v, u, rfl, heffect⟩
  · exact ⟨_, rfl⟩
  · exact ⟨okResp v, by rw [respond_env, heffect.env_eq]⟩

/-- Whatever the word, its HostCmd step answers it once. -/
theorem hostWord_answers {s : State} (w : CmdWord) (hinv : BlockInv s) :
    ∃ t r, hostWord w s = .next t ∧ t.env = { s.env with respOut := s.env.respOut ++ [r] } := by
  cases hw : decodeCommand w with
  | ok i =>
    have hi := decodeCommand_isCommand hw
    obtain ⟨t, ht⟩ := exec_command_exists_next hi hinv
    obtain ⟨r, hr⟩ := exec_command_env hi ht
    exact ⟨t, r, (hostWord_of_decode_ok hw s).trans ht, hr⟩
  | error e => exact ⟨_, _, hostWord_of_decode_error hw s, rfl⟩

/-- Settles O15, by induction on the words: each step answers one and keeps the invariant. -/
theorem everyWordAnswered : Obligations.EveryWordAnswered := by
  intro words
  induction words with
  | nil =>
    intro s ts ws _ _ hturns hin
    obtain rfl : s.env.turns = ts := hturns
    obtain rfl : s.env.hostIn = ws := hin
    exact ⟨s, [], rfl, rfl, by simp⟩
  | cons w words ih =>
    intro s ts ws hinv hrst hturns hin
    obtain ⟨t, r, hword, henv⟩ :=
      hostWord_answers (s := afterWord (List.replicate words.length .host ++ ts) (words ++ ws) s) w hinv
    have hstep : step s = .next t := (step_eq_hostWord hrst hturns hin).trans hword
    obtain ⟨u, responses, hrun, hcount, hu⟩ :=
      ih t ts ws (invariantKept s t hinv hstep) (by rw [henv]; exact hrst) (by rw [henv]; rfl) (by rw [henv]; rfl)
    exact ⟨u, r :: responses, (runSteps_succ _ hstep).trans hrun, by simp [hcount],
      by rw [hu, henv]; simp [afterWord]⟩

/-! ## Runs of commands -/

/-- Whatever stands at the ports, the command `i` answers `r` in the block's state `s` and leaves the block's state `t`;
what `s` and `t` have at the ports does not count. -/
def Answers (i : Instr) (s : State) (r : RespWord) (t : State) : Prop :=
  ∀ e : Env, exec i { s with env := e } = .next (present r { t with env := e })

/-- The legal commands, one after the other, answer the responses and leave the last state. -/
inductive CommandRun : List Instr → State → List RespWord → State → Prop
  | nil (s : State) : CommandRun [] s [] s
  | cons {i : Instr} {is : List Instr} {s t u : State} {r : RespWord} {responses : List RespWord}
    (command : i.isCommand = true) (legal : i.wellFormed = true) (answers : Answers i s r t)
    (rest : CommandRun is t responses u) : CommandRun (i :: is) s (r :: responses) u

theorem CommandRun.append {is js : List Instr} {s t u : State} {responses later : List RespWord}
    (h : CommandRun is s responses t) (h' : CommandRun js t later u) :
    CommandRun (is ++ js) s (responses ++ later) u := by
  induction h with
  | nil => exact h'
  | cons command legal answers _ ih => exact .cons command legal answers (ih h')

/-- The first word of a list of commands decodes to the first of them. -/
theorem commandWords_cons {i : Instr} (command : i.isCommand = true) (legal : i.wellFormed = true) (is : List Instr) :
    ∃ w, commandWords (i :: is) = w :: commandWords is ∧ decodeCommand w = .ok i := by
  cases henc : Sys2Proof.encode i with
  | command w => exact ⟨w, by simp [commandWords, commandWord, henc], decode_eq_ok_iff.2 ⟨legal, henc⟩⟩
  | wire bytes =>
    cases i with
    | frame f | autoCenter => cases command
    | _ => cases henc

/-- The ports once words have been consumed and answered, the turns `ts` and the words `ws` being left. -/
def afterWords (ts : List Turn) (ws : List CmdWord) (responses : List RespWord) (e : Env) : Env :=
  { e with turns := ts, hostIn := ws, respOut := e.respOut ++ responses }

/-- As many HostCmd steps as there are commands, over their words. -/
theorem CommandRun.runSteps_eq {is : List Instr} {s u : State} {responses : List RespWord} {ts : List Turn}
    {ws : List CmdWord} (h : CommandRun is s responses u) (hrst : s.env.rst = false)
    (hturns : s.env.turns = List.replicate is.length .host ++ ts) (hin : s.env.hostIn = commandWords is ++ ws) :
    runSteps is.length s = .next { u with env := afterWords ts ws responses s.env } := by
  suffices hports : ∀ e : Env, e.rst = false → e.turns = List.replicate is.length .host ++ ts →
      e.hostIn = commandWords is ++ ws →
      runSteps is.length { s with env := e } = .next { u with env := afterWords ts ws responses e } from
    hports s.env hrst hturns hin
  clear hrst hturns hin
  induction h with
  | nil s =>
    intro e _ hturns hin
    obtain rfl : e.turns = ts := hturns
    obtain rfl : e.hostIn = ws := hin
    simp [afterWords]
  | @cons i is s t u r responses command legal answers _ ih =>
    intro e hrst hturns hin
    obtain ⟨w, hwords, hw⟩ := commandWords_cons command legal is
    rw [hwords] at hin
    have hstep : step { s with env := e } =
        .next { t with env := afterWords (List.replicate is.length .host ++ ts) (commandWords is ++ ws) [r] e } := by
      rw [step_eq_hostWord hrst hturns hin, hostWord_of_decode_ok hw]
      exact answers _
    rw [List.length_cons, runSteps_succ _ hstep, ih (afterWords _ _ [r] e) hrst rfl rfl]
    simp [afterWords]

/-! ## CRC16 -/

theorem commandRun_crcBytes (bytes : List Byte) (s : State) :
    CommandRun (bytes.map .crcByte) s (List.replicate bytes.length 0x10000#17)
      { s with crcAcc := bytes.foldl crcStep s.crcAcc } := by
  induction bytes generalizing s with
  | nil => exact .nil s
  | cons b bytes ih => exact .cons rfl rfl (fun _ => rfl) (ih { s with crcAcc := crcStep s.crcAcc b })

/-- Clear, fold the bytes, read `crc_acc` (40_crc.md R137). -/
theorem commandRun_crc16Commands (bytes : List Byte) (s : State) :
    CommandRun (crc16Commands bytes) s (List.replicate (bytes.length + 1) 0x10000#17 ++ [0b1#1 ++ checksum bytes])
      { s with crcAcc := checksum bytes } :=
  .cons (t := { s with crcAcc := crcInit }) rfl rfl (fun _ => rfl)
    ((commandRun_crcBytes bytes _).append (.cons rfl rfl (fun _ => rfl) (.nil _)))

/-- Settles O55: the run of the expansion, at the ports of the statement. -/
theorem crc16Pseudo : Obligations.Crc16Pseudo := by
  intro s bytes ts ws hrst hturns hin
  have hlength : (crc16Commands bytes).length = bytes.length + 2 := by simp [crc16Commands]
  rw [← hlength] at hturns ⊢
  exact (commandRun_crc16Commands bytes s).runSteps_eq hrst hturns hin

/-! ## ENCODE -/

/-- A byte stored behind the first `n` is the next one. -/
theorem Memory.firstN_write {m : Memory} {n : Nat} {bytes : List Byte} (h : Memory.firstN m n = some bytes)
    (b : Byte) : Memory.firstN (Memory.write m n b) (n + 1) = some (bytes ++ [b]) := by
  obtain ⟨rfl, hread⟩ := Memory.firstN_eq_some.1 h
  refine Memory.firstN_eq_some.2 ⟨by simp, fun k hk => ?_⟩
  rw [Memory.read_write]
  split
  next hnew => simp [hnew]
  next hold => rw [hread k (by omega), List.getElem?_append_left (by omega)]

theorem answers_txClear {s : State} (hidle : s.tx.state = .idle) :
    Answers .txClear s 0x10000#17 { s with tx := { s.tx with len := 0 } } :=
  fun e => whenTxIdle_idle (s := { s with env := e }) _ hidle

theorem answers_txSend {s : State} (id : Byte) (hidle : s.tx.state = .idle) :
    Answers (.txSend id) s 0x10000#17
      { s with tx := { s.tx with cmd := id, idx := 0, crc := crcInit, state := .send } } :=
  fun e => whenTxIdle_idle (s := { s with env := e }) _ hidle

theorem answers_txPush {s : State} (b : Byte) (hidle : s.tx.state = .idle)
    (hroom : s.tx.len.toNat < s.cfg.payloadMax.val) :
    Answers (.txPush b) s 0x10000#17
      { s with tx := { s.tx with buf := Memory.write s.tx.buf s.tx.len.toNat b, len := s.tx.len + 1 } } := by
  intro e
  simp only [exec, execTxPush]
  rw [whenTxIdle_idle _ (by exact hidle), if_neg (by exact hroom.ne), writeCell, if_pos (by exact hroom)]
  rfl

/-- TX_PUSH after TX_PUSH puts the bytes behind those already staged (41_encode.md R153). -/
theorem commandRun_txPushes {payload staged : List Byte} {s : State} (hidle : s.tx.state = .idle)
    (hstaged : Memory.firstN s.tx.buf s.tx.len.toNat = some staged)
    (hroom : s.tx.len.toNat + payload.length ≤ s.cfg.payloadMax.val) :
    ∃ buf, CommandRun (payload.map .txPush) s (List.replicate payload.length 0x10000#17)
        { s with tx := { s.tx with buf := buf, len := s.tx.len + BitVec.ofNat 16 payload.length } } ∧
      Memory.firstN buf (s.tx.len.toNat + payload.length) = some (staged ++ payload) := by
  induction payload generalizing s staged with
  | nil => exact ⟨s.tx.buf, by simpa using .nil s, by simpa using hstaged⟩
  | cons b payload ih =>
    rw [List.length_cons] at hroom
    have hmax := s.cfg.payloadMax.isLt
    have hlen : (s.tx.len + 1).toNat = s.tx.len.toNat + 1 := by
      rw [BitVec.toNat_add, show (1 : Half).toNat = 1 from rfl, Nat.mod_eq_of_lt (by omega)]
    have hsum : s.tx.len + BitVec.ofNat 16 (payload.length + 1) = s.tx.len + 1 + BitVec.ofNat 16 payload.length := by
      rw [BitVec.ofNat_add, BitVec.add_assoc, BitVec.add_comm (BitVec.ofNat 16 payload.length)]
      rfl
    obtain ⟨buf, hrun, hbuf⟩ := ih
      (s := { s with tx := { s.tx with buf := Memory.write s.tx.buf s.tx.len.toNat b, len := s.tx.len + 1 } })
      hidle (hlen.symm ▸ Memory.firstN_write hstaged b) (by simp only [hlen]; omega)
    refine ⟨buf, .cons rfl rfl (answers_txPush b hidle (by omega)) ?_, ?_⟩
    · rw [List.length_cons, hsum]
      exact hrun
    · rw [List.length_cons, ← Nat.add_assoc, Nat.add_right_comm, List.append_cons]
      exact hlen ▸ hbuf

/-- Whatever was staged, TX_CLEAR forgets it, and TX_SEND starts the frame of what is staged then. -/
theorem commandRun_encodeCommands {payload : List Byte} {s : State} (id : Byte) (hidle : s.tx.state = .idle)
    (hroom : payload.length ≤ s.cfg.payloadMax.val) :
    ∃ buf, CommandRun (encodeCommands id payload) s (List.replicate (payload.length + 2) 0x10000#17)
        { s with tx := { s.tx with
            state := .send, len := BitVec.ofNat 16 payload.length, cmd := id, idx := 0, crc := crcInit
            buf := buf } } ∧
      Memory.firstN buf payload.length = some payload := by
  obtain ⟨buf, hpushes, hbuf⟩ := commandRun_txPushes (payload := payload) (staged := [])
    (s := { s with tx := { s.tx with len := 0 } }) hidle rfl (by simpa using hroom)
  rw [List.replicate_succ, List.replicate_succ', ← BitVec.zero_add (BitVec.ofNat 16 payload.length)]
  exact ⟨buf, .cons rfl rfl (answers_txClear hidle)
    (hpushes.append (.cons rfl rfl (answers_txSend id hidle) (.nil _))), by simpa using hbuf⟩

/-- Settles O56: the run of the expansion, at the ports of the statement. -/
theorem encodePseudoStages : Obligations.EncodePseudoStages := by
  intro s id payload ts ws hidle hroom hrst hturns hin
  have hlength : (encodeCommands id payload).length = payload.length + 2 := by simp [encodeCommands]
  obtain ⟨buf, hrun, hbuf⟩ := commandRun_encodeCommands id hidle hroom
  rw [← hlength] at hturns
  have hrunSteps := hrun.runSteps_eq hrst hturns hin
  rw [hlength] at hrunSteps
  exact ⟨buf, hrunSteps, hbuf⟩

end Sys2Proof.Machine
end

section
/-! Frames as byte sequences: their fields, when one is valid, and the verdict of `decode` (30_encoding.md R90, R99;
42_decode_validate.md R170, R171, R182). -/

namespace Sys2Proof.Machine

/-- Settles O12: both vectors are computed. -/
theorem sourceVector : Obligations.SourceVector := by
  unfold Obligations.SourceVector
  decide +kernel

/-! ## Valid frames -/

theorem validFrame_iff {d : List Byte} :
    validFrame d = true ↔ frameMin ≤ d.length ∧ byteAt d 0 = hdr0 ∧ byteAt d 1 = hdr1 ∧
      prefixLen + (declaredLen d).toNat + fcsLen = d.length ∧ checksum (d.take (d.length - 2)) = trailingField d := by
  simp [validFrame, and_assoc, prefixLen, fcsLen, eq_comm (a := trailingField d)]

/-- The tests of `decode` that fail are those of R99, each on its own. -/
theorem validFrame_iff_decodeFrame_ok {d : List Byte} :
    validFrame d = true ↔ ∃ cmd payload ctrl seq len, decodeFrame d = .ok cmd payload ctrl seq len := by
  rw [validFrame_iff]
  constructor
  · rintro ⟨hmin, hhdr0, hhdr1, htotal, hsum⟩
    exact ⟨_, _, _, _, _, (if_neg hmin.not_gt).trans ((if_neg (by simp [hhdr0, hhdr1])).trans
      ((if_neg (not_not.2 htotal)).trans (if_neg (not_not.2 hsum))))⟩
  · rintro ⟨cmd, payload, ctrl, seq, len, h⟩
    unfold decodeFrame at h
    obtain ⟨-, h⟩ | ⟨hmin, h⟩ := ite_cases h
    · cases h
    obtain ⟨-, h⟩ | ⟨hhdr, h⟩ := ite_cases h
    · cases h
    obtain ⟨-, h⟩ | ⟨htotal, h⟩ := ite_cases h
    · cases h
    obtain ⟨-, h⟩ | ⟨hsum, h⟩ := ite_cases h
    · cases h
    rw [not_or, not_not, not_not] at hhdr
    exact ⟨not_lt.1 hmin, hhdr.1, hhdr.2, not_not.1 htotal, not_not.1 hsum⟩

/-! ## Bytes added and taken away -/

theorem byteAt_append_of_lt {d : List Byte} (e : List Byte) {i : Nat} (h : i < d.length) :
    byteAt (d ++ e) i = byteAt d i := List.getD_append _ _ _ _ h

/-- Once the length field has arrived, the bytes behind it do not change it. -/
theorem declaredLen_append {d : List Byte} (e : List Byte) (h : 5 ≤ d.length) :
    declaredLen (d ++ e) = declaredLen d := by
  rw [declaredLen, declaredLen, byteAt_append_of_lt e (by omega), byteAt_append_of_lt e (by omega)]

/-- A datagram whose total length is not the declared one is malformed, whatever else is wrong with it. -/
theorem decodeFrame_of_wrong_length {d : List Byte} (h : prefixLen + (declaredLen d).toNat + fcsLen ≠ d.length) :
    decodeFrame d = .malformed := by
  rw [decodeFrame, if_pos h, ite_self, ite_self]

/-- Settles O36: the verdict is Ok by the tests of R99, and a changed total length is not the declared one any more. -/
theorem validatorAcceptsValidFrames : Obligations.ValidatorAcceptsValidFrames := by
  refine ⟨fun _ => validFrame_iff_decodeFrame_ok, fun d extra hvalid hextra => ?added,
    fun d k hvalid hk => ?removed⟩
  all_goals
    obtain ⟨hmin, -, -, htotal, -⟩ := validFrame_iff.1 hvalid
    rw [frameMin] at hmin
  case added =>
    have hpos := List.length_pos_iff.2 hextra
    apply decodeFrame_of_wrong_length
    rw [declaredLen_append extra (by omega), htotal, List.length_append]
    omega
  case removed =>
    have hlength : (d.take k).length = k := List.length_take_of_le hk.le
    apply decodeFrame_of_wrong_length
    rw [hlength]
    by_cases hfield : 5 ≤ k
    · have hsame := declaredLen_append (d.drop k) (hlength.symm ▸ hfield)
      rw [List.take_append_drop] at hsame
      rw [← hsame, htotal]
      exact hk.ne'
    · rw [prefixLen, fcsLen]
      omega

/-! ## The bytes of a wire frame -/

/-- The bytes of a frame before the trailing field. -/
def framePre (f : WireFrame) : List Byte :=
  [hdr0, hdr1, f.ctrl] ++ le16 f.len ++ le16 f.seq ++ [f.cmdId] ++ f.payload

theorem frameBytes_eq (f : WireFrame) : frameBytes f = framePre f ++ le16 f.crc16 := rfl

theorem length_framePre (f : WireFrame) : (framePre f).length = 8 + f.payload.length := by
  simp [framePre]; omega

theorem length_frameBytes (f : WireFrame) : (frameBytes f).length = 10 + f.payload.length := by
  rw [frameBytes_eq, List.length_append, length_framePre, length_le16]; omega

theorem declaredLen_frameBytes (f : WireFrame) : declaredLen (frameBytes f) = f.len := unle16_lo8_hi8 _

theorem take_frameBytes (f : WireFrame) : (frameBytes f).take (8 + f.payload.length) = framePre f := by
  rw [frameBytes_eq, ← length_framePre, List.take_left]

/-- The checksum field stands behind the payload, low byte first (30_encoding.md R97). -/
theorem crcField_frameBytes (f : WireFrame) :
    unle16 (byteAt (frameBytes f) (8 + f.payload.length)) (byteAt (frameBytes f) (8 + f.payload.length + 1)) =
      f.crc16 := by
  rw [← length_framePre, frameBytes_eq]
  simp [byteAt, le16]

theorem trailingField_frameBytes (f : WireFrame) : trailingField (frameBytes f) = f.crc16 := by
  have hlow : (frameBytes f).length - 2 = 8 + f.payload.length := by rw [length_frameBytes]; omega
  have hhigh : (frameBytes f).length - 1 = 8 + f.payload.length + 1 := by rw [length_frameBytes]; omega
  rw [trailingField, hlow, hhigh, crcField_frameBytes]

theorem drop_frameBytes (f : WireFrame) : (frameBytes f).drop 8 = f.payload ++ le16 f.crc16 := rfl

/-- The payload stands from byte 8 on (30_encoding.md R96). -/
theorem byteAt_frameBytes_payload (f : WireFrame) {k : Nat} (h : k < f.payload.length) :
    some (byteAt (frameBytes f) (8 + k)) = f.payload[k]? := by
  have hk : 8 + k < (frameBytes f).length := by rw [length_frameBytes]; omega
  rw [byteAt, List.getD_eq_getElem?_getD, List.getElem?_eq_getElem hk, Option.getD_some,
    ← List.getElem?_eq_getElem hk, ← List.getElem?_drop, drop_frameBytes, List.getElem?_append_left h]

/-- `decode` asks a frame for its checksum only (42_decode_validate.md R170). -/
theorem decodeFrame_frameBytes {f : WireFrame} (h : f.len.toNat = f.payload.length) :
    decodeFrame (frameBytes f) =
      if checksum (framePre f) ≠ f.crc16 then .checksumMismatch else .ok f.cmdId f.payload f.ctrl f.seq f.len := by
  have hpre : (frameBytes f).length - 2 = 8 + f.payload.length := by rw [length_frameBytes]; omega
  have hpayload : ((frameBytes f).drop 8).take f.payload.length = f.payload := by rw [drop_frameBytes, List.take_left]
  have hseq : unle16 (byteAt (frameBytes f) 5) (byteAt (frameBytes f) 6) = f.seq := unle16_lo8_hi8 _
  have hheader : ¬ (byteAt (frameBytes f) 0 ≠ hdr0 ∨ byteAt (frameBytes f) 1 ≠ hdr1) :=
    not_or.2 ⟨not_not.2 rfl, not_not.2 rfl⟩
  rw [decodeFrame, if_neg (by rw [length_frameBytes, frameMin]; omega), if_neg hheader,
    if_neg (by rw [declaredLen_frameBytes, length_frameBytes, h, prefixLen, fcsLen]; omega), hpre, take_frameBytes,
    trailingField_frameBytes, declaredLen_frameBytes, h, hpayload, hseq]
  rfl

/-- The frame whose bytes `encode` gives (41_encode.md R150). -/
def emittedFrame (id : Byte) (seq : Half) (payload : List Byte) : WireFrame :=
  { ctrl := ctrlConst, len := BitVec.ofNat 16 payload.length, seq := seq, cmdId := id, payload := payload
    crc16 := checksum (encodePre id seq payload) }

theorem framePre_emittedFrame (id : Byte) (seq : Half) (payload : List Byte) :
    framePre (emittedFrame id seq payload) = encodePre id seq payload := rfl

theorem crc16_emittedFrame (id : Byte) (seq : Half) (payload : List Byte) :
    (emittedFrame id seq payload).crc16 = checksum (encodePre id seq payload) := by
  rw [emittedFrame]

theorem encodeFrame_eq_frameBytes (id : Byte) (seq : Half) (payload : List Byte) :
    encodeFrame id seq payload = frameBytes (emittedFrame id seq payload) := by
  rw [encodeFrame, frameBytes_eq, framePre_emittedFrame, crc16_emittedFrame]

/-- Settles O34: an encoded frame declares its payload's length and carries its own checksum. -/
theorem encodedFramesValid : Obligations.EncodedFramesValid := by
  intro id seq payload hlen
  have hdeclared : (emittedFrame id seq payload).len.toNat = payload.length := by
    rw [emittedFrame, BitVec.toNat_ofNat, Nat.mod_eq_of_lt (by omega)]
  have hok := decodeFrame_frameBytes hdeclared
  rw [framePre_emittedFrame, crc16_emittedFrame, if_neg (not_not.2 rfl), ← encodeFrame_eq_frameBytes] at hok
  exact ⟨length_encodeFrame id seq payload, validFrame_iff_decodeFrame_ok.2 ⟨_, _, _, _, _, hok⟩⟩

end Sys2Proof.Machine
end

section
/-! The wire rows FRAME and AUTO_CENTER, as an arrival at the RX stream (30_encoding.md R90, R108; 42_decode_validate.md
R170 to R181; log 6, log 7). -/

namespace Sys2Proof.Machine

/-! ## A whole datagram -/

theorem map_fst_markLast (d : List Byte) : (markLast d).map Prod.fst = d := by
  fun_induction markLast d with
  | case1 => rfl
  | case2 b => rfl
  | case3 b c d ih => rw [List.map_cons, ih]

theorem inOneDatagram_markLast (d : List Byte) : InOneDatagram (markLast d) := by
  fun_induction markLast d with
  | case1 => exact List.forall_mem_nil _
  | case2 b => exact List.forall_mem_nil _
  | case3 b c d ih => exact ih.cons

theorem markLast_ne_nil {d : List Byte} (h : d ≠ []) : markLast d ≠ [] :=
  List.ne_nil_of_length_pos (by rw [length_markLast]; exact List.length_pos_iff.2 h)

/-- The final byte of a datagram says that it is the last. -/
theorem getLast?_markLast {d : List Byte} (h : d ≠ []) : (markLast d).getLast?.any Prod.snd = true := by
  have hpos := List.length_pos_iff.2 h
  rw [List.getLast?_eq_getElem?, length_markLast, getElem?_markLast, List.getElem?_eq_getElem (by omega)]
  simp; omega

/-- A held datagram has a verdict. -/
theorem rxSteps_result_ne_none {size : Nat} {bytes : List StreamByte} {r : RxEngine} (hone : InOneDatagram bytes)
    (hr : r.state ≠ .done) (hdone : (rxSteps size bytes r).state = .done) :
    (rxSteps size bytes r).result ≠ .none := by
  refine rxSteps_induct (P := fun r => r.state = .done → r.result ≠ .none) (fun b last r hr _ hstep => ?_) hone
    (fun _ => hr) (absurd · hr) hdone
  cases last with
  | true => exact rxVerdict_ne_none size _
  | false => cases (rxStep_state size b false hr).symm.trans hstep

section
variable {size : Nat} {d : List Byte} {r : RxEngine}

theorem rxSteps_markLast_state (hd : d ≠ []) (hr : r.state ≠ .done) :
    (rxSteps size (markLast d) r).state = .done := by
  rw [rxSteps_state size (inOneDatagram_markLast d) (markLast_ne_nil hd) hr, if_pos (getLast?_markLast hd)]

/-- From IDLE the registers are those of the datagram, and the verdict is its own (42_decode_validate.md R184). -/
theorem rxSteps_markLast_taken (hd : d ≠ []) (hidle : r.state = .idle) :
    RxTaken size d (rxSteps size (markLast d) r) ∧ (rxSteps size (markLast d) r).result = blockVerdict size d := by
  have hr : r.state ≠ .done := by simp [hidle]
  obtain ⟨htaken, hverdict⟩ := RxTaken.acceptAll (inOneDatagram_markLast d) (markLast_ne_nil hd) hr
    (rxBegin_of_idle hidle ▸ rxTaken_nil_rxInit size r)
  rw [List.nil_append, map_fst_markLast] at htaken hverdict
  exact ⟨htaken, hverdict (rxSteps_markLast_state hd hr)⟩

/-- A byte writes no cell but one of the declared payload that exists (42_decode_validate.md R178). -/
theorem RxTaken.read_rxStep_other (h : RxTaken size d (rxBegin r)) (b : Byte) (last : Bool) (e : List Byte) {k : Nat}
    (hk : ¬ (k < (declaredLen (d ++ e)).toNat ∧ k < size)) :
    Memory.read (rxStep size b last r).buf k = Memory.read r.buf k := by
  have hbegin : (rxBegin r).buf = r.buf := by unfold rxBegin; split <;> rfl
  have hstep : (rxStep size b last r).buf = (rxTake size b (rxBegin r)).buf := by cases last <;> rfl
  rw [hstep, read_rxTake_buf, hbegin]
  refine if_neg fun ⟨hcnt, hlen, hsize⟩ => hk ⟨?_, hsize⟩
  have hL := (rxBegin r).len.isLt
  have hd := (h.cnt_eq_iff (n := 8 + k) (by omega)).1 hcnt
  rwa [declaredLen_append e (by omega), ← h.len]

theorem RxTaken.read_rxSteps_other {bytes : List StreamByte} (hone : InOneDatagram bytes) (hne : bytes ≠ [])
    (hr : r.state ≠ .done) (h : RxTaken size d (rxBegin r)) {k : Nat}
    (hk : ¬ (k < (declaredLen (d ++ bytes.map Prod.fst)).toNat ∧ k < size)) :
    Memory.read (rxSteps size bytes r).buf k = Memory.read r.buf k := by
  induction bytes generalizing r d with
  | nil => exact absurd rfl hne
  | cons c bytes ih =>
    obtain ⟨b, last⟩ := c
    have hbyte := h.read_rxStep_other b last _ hk
    rw [rxSteps_cons]
    by_cases hrest : bytes = []
    · rw [hrest]
      exact hbyte
    · obtain ⟨rfl, honerest⟩ := hone.of_cons hrest
      have hstep : (rxStep size b false r).state = .recv := rxStep_state size b false hr
      rw [List.map_cons, List.append_cons] at hk
      exact (ih honerest hrest (by simp [hstep]) ((rxBegin_of_recv hstep).symm ▸ h.accept b false) hk).trans hbyte

end

/-! ## A frame -/

section
variable {size : Nat} {f : WireFrame} {r : RxEngine}

theorem frameBytes_ne_nil (f : WireFrame) : frameBytes f ≠ [] := List.cons_ne_nil _ _

/-- The verdict on a frame: its size first, then its checksum (42_decode_validate.md R180, R181; log 14). -/
theorem blockVerdict_frameBytes (h : f.len.toNat = f.payload.length) :
    blockVerdict size (frameBytes f) =
      if size < f.len.toNat then .malformed
      else if checksum ((frameBytes f).take (8 + f.len.toNat)) ≠ f.crc16 then .checksumMismatch
      else .ok := by
  rw [blockVerdict, decodeFrame_frameBytes h, h, take_frameBytes]
  by_cases hsum : checksum (framePre f) ≠ f.crc16
  · rw [if_pos hsum, if_pos hsum, declaredLen_frameBytes, h]
  · rw [if_neg hsum, if_neg hsum, ← h]

theorem RxTaken.frame_fields (h : RxTaken size (frameBytes f) r) (hlen : f.len.toNat = f.payload.length) :
    r.cmd = f.cmdId ∧ r.len = f.len ∧ r.seq = f.seq ∧ r.ctrl = f.ctrl ∧ r.cnt.toNat = 10 + f.len.toNat ∧
      r.hdrBad = false ∧ r.crc = checksum ((frameBytes f).take (8 + f.len.toNat)) ∧ r.fcs = f.crc16 := by
  have hL := f.len.isLt
  have hrlen : r.len = f.len := h.len.trans (declaredLen_frameBytes f)
  refine ⟨h.cmd, hrlen, h.seq.trans (unle16_lo8_hi8 _), h.ctrl, ?_, ?_, ?_, ?_⟩
  · rw [h.cnt_eq_iff (by omega), length_frameBytes, hlen]
  · have hheader := h.hdrBad.not.2 (by rintro (⟨-, hne⟩ | ⟨-, hne⟩) <;> exact hne rfl)
    simpa using hheader
  · rw [h.crc, hrlen]
  · rw [h.fcs, hrlen, hlen, crcField_frameBytes]

/-- From IDLE a frame is judged, its fields and as much of its payload as has cells are held, and every other cell stays
as it was. -/
theorem rxSteps_frameBytes (hlen : f.len.toNat = f.payload.length) (hidle : r.state = .idle) :
    let t := rxSteps size (markLast (frameBytes f)) r
    t.result =
      (if size < f.len.toNat then .malformed
       else if checksum ((frameBytes f).take (8 + f.len.toNat)) ≠ f.crc16 then .checksumMismatch
       else .ok) ∧
    (t.cmd = f.cmdId ∧ t.len = f.len ∧ t.seq = f.seq ∧ t.ctrl = f.ctrl ∧ t.cnt.toNat = 10 + f.len.toNat ∧
      t.hdrBad = false ∧ t.crc = checksum ((frameBytes f).take (8 + f.len.toNat)) ∧ t.fcs = f.crc16) ∧
    (∀ k, k < f.len.toNat → k < size → Memory.read t.buf k = f.payload[k]?) ∧
    ∀ k, ¬ (k < f.len.toNat ∧ k < size) → Memory.read t.buf k = Memory.read r.buf k := by
  intro t
  obtain ⟨htaken, hverdict⟩ := rxSteps_markLast_taken (size := size) (frameBytes_ne_nil f) hidle
  refine ⟨hverdict.trans (blockVerdict_frameBytes hlen), htaken.frame_fields hlen, fun k hk hsize => ?held,
    fun k hk => ?other⟩
  case held =>
    have hrlen := htaken.len.trans (declaredLen_frameBytes f)
    rw [← byteAt_frameBytes_payload f (hlen ▸ hk)]
    exact htaken.cells k (hrlen.symm ▸ hk) hsize (by rw [length_frameBytes, ← hlen]; omega)
  case other =>
    refine RxTaken.read_rxSteps_other (inOneDatagram_markLast _) (markLast_ne_nil (frameBytes_ne_nil f))
      (by simp [hidle]) (rxBegin_of_idle hidle ▸ rxTaken_nil_rxInit size r) ?_
    rwa [List.nil_append, map_fst_markLast, declaredLen_frameBytes]

end

/-- Outside DONE the bytes of a frame are taken and end the datagram with a verdict. -/
theorem presentBytes_frameBytes (f : WireFrame) {s : State} (hs : s.rx.state ≠ .done) :
    let r := rxSteps s.cfg.payloadMax.val (markLast (frameBytes f)) s.rx
    presentBytes (markLast (frameBytes f)) s = { s with rx := r } ∧ r.state = .done ∧ r.result ≠ .none := by
  intro r
  have hdone : r.state = .done := rxSteps_markLast_state (frameBytes_ne_nil f) hs
  exact ⟨presentBytes_inOneDatagram (inOneDatagram_markLast _) hs, hdone,
    rxSteps_result_ne_none (inOneDatagram_markLast _) hs hdone⟩

/-- Settles O44: from IDLE the registers stand for the frame's bytes. -/
theorem frameArrives : Obligations.FrameArrives := by
  intro s f hwf size L r
  obtain ⟨hlen, -⟩ := WireFrame.wellFormed_iff.1 hwf
  refine ⟨fun hs => ?taken, fun hidle => ?judged, fun hdone => congrArg _ (presentBytes_done _ hdone)⟩
  case taken =>
    obtain ⟨hpresent, hend⟩ := presentBytes_frameBytes f hs
    exact ⟨congrArg _ hpresent, hend⟩
  case judged =>
    obtain ⟨hverdict, ⟨hcmd, hrlen, hseq, hctrl, hcnt, hhdr, hcrc, hfcs⟩, hheld, hother⟩ :=
      rxSteps_frameBytes (size := size) hlen hidle
    exact ⟨hverdict, hcmd, hrlen, hseq, hctrl, hcnt, hhdr, hcrc, hfcs, hheld, hother⟩

theorem length_autoCenterFrame : autoCenterFrame.len.toNat = 1 := rfl

theorem checksum_autoCenterFrame : checksum ((frameBytes autoCenterFrame).take (8 + 1)) = 0x12D1 := by decide +kernel

/-- Settles O45: the printed frame is one of the frames above, and its checksum is right. -/
theorem autoCenterArrives : Obligations.AutoCenterArrives := by
  intro s
  rw [← frameBytes_autoCenterFrame]
  intro size r
  refine ⟨fun hs => ?taken, fun hidle => ?judged, fun hdone => ?held⟩
  case taken =>
    obtain ⟨hpresent, hend⟩ := presentBytes_frameBytes autoCenterFrame hs
    rw [exec, execAutoCenter, ← frameBytes_autoCenterFrame]
    exact ⟨congrArg _ hpresent, hend⟩
  case judged =>
    obtain ⟨hverdict, ⟨hcmd, hrlen, hseq, hctrl, hcnt, hhdr, hcrc, hfcs⟩, hheld, hother⟩ :=
      rxSteps_frameBytes (size := size) (f := autoCenterFrame) rfl hidle
    rw [length_autoCenterFrame, checksum_autoCenterFrame] at hverdict hcrc
    rw [length_autoCenterFrame] at hheld hother
    refine ⟨hverdict.trans (if_congr Nat.lt_one_iff rfl (if_neg (not_not.2 rfl))), hcmd, hrlen, hseq, hctrl,
      BitVec.eq_of_toNat_eq hcnt, hhdr, hcrc, hfcs, fun hsize => hheld 0 Nat.one_pos (Nat.pos_of_ne_zero hsize),
      fun k hk => hother k fun ⟨hzero, hsize⟩ => hk ⟨Nat.lt_one_iff.1 hzero, Nat.ne_zero_of_lt hsize⟩⟩
  case held =>
    rw [exec, execAutoCenter, ← frameBytes_autoCenterFrame, presentBytes_done _ hdone]
    rfl

end Sys2Proof.Machine
end

section
/-! PROOFS. The checksum's laws (40_crc.md R131 to R139): each shift step is linear and loses nothing, so one step is
a bijection of the accumulator and one changed byte is never forgotten. -/

namespace Sys2Proof.Machine

/-! ## The shift step -/

/-- Below the top bit a shift step doubles (40_crc.md R131). -/
theorem toNat_crcShift_of_lt {r : Half} (h : 2 * r.toNat < 2 ^ 16) : (crcShift r).toNat = 2 * r.toNat := by
  rw [crcShift, BitVec.msb_eq_false_iff_two_mul_lt.2 h, if_neg Bool.false_ne_true, BitVec.toNat_shiftLeft,
    Nat.shiftLeft_eq]
  omega

/-- The polynomial is odd, so subtracting it from a doubled remainder leaves no zero (40_crc.md R132). -/
theorem eq_zero_of_crcShift_eq_zero {r : Half} (h : crcShift r = 0) : r = 0 := by
  apply BitVec.eq_of_toNat_eq
  cases hmsb : r.msb with
  | false =>
    have hdouble := toNat_crcShift_of_lt (BitVec.msb_eq_false_iff_two_mul_lt.1 hmsb)
    rw [h] at hdouble
    simpa using hdouble.symm
  | true =>
    rw [crcShift, hmsb, if_pos rfl] at h
    have hpoly := congrArg BitVec.toNat (BitVec.xor_eq_zero_iff.1 h)
    rw [BitVec.toNat_shiftLeft, Nat.shiftLeft_eq, show poly.toNat = 4129 from rfl] at hpoly
    omega

theorem crcShift_injective : Function.Injective crcShift := fun r q h => by
  have hzero : crcShift (r ^^^ q) = 0 := by rw [crcShift_xor, h, BitVec.xor_self]; rfl
  exact BitVec.xor_eq_zero_iff.1 (eq_zero_of_crcShift_eq_zero hzero)

theorem crcShift8_eq_iterate : crcShift8 = crcShift^[8] := rfl

theorem crcShift8_injective : Function.Injective crcShift8 := crcShift_injective.iterate 8

theorem crcShift8_zero : crcShift8 0 = 0 := by simp only [crcShift8, crcShift_zero]

/-- As long as nothing is shifted out at the top, the steps subtract nothing. -/
theorem toNat_crcShift_iterate_of_lt (k : Nat) {r : Half} (h : 2 ^ k * r.toNat < 2 ^ 16) :
    (crcShift^[k] r).toNat = 2 ^ k * r.toNat := by
  induction k with
  | zero => simp
  | succ k ih =>
    rw [Nat.pow_succ', Nat.mul_assoc] at h ⊢
    have hk := ih (by omega)
    rw [Function.iterate_succ_apply', toNat_crcShift_of_lt (hk ▸ h), hk]

/-! ## One step -/

theorem unle16_xor (lo lo' hi hi' : Byte) : unle16 (lo ^^^ lo') (hi ^^^ hi') = unle16 lo hi ^^^ unle16 lo' hi' :=
  BitVec.xor_append.symm

theorem unle16_inj {lo lo' hi hi' : Byte} : unle16 lo hi = unle16 lo' hi' ↔ lo = lo' ∧ hi = hi' := by
  refine ⟨fun h => ⟨?_, ?_⟩, fun ⟨hlo, hhi⟩ => hlo ▸ hhi ▸ rfl⟩
  · simpa using congrArg lo8 h
  · simpa using congrArg hi8 h

theorem crcTable_injective : Function.Injective crcTable := fun _ _ h =>
  (unle16_inj.1 (crcShift8_injective h)).2

theorem crcTable_zero : crcTable 0 = 0 := crcShift8_zero

/-- The low byte of the accumulator is moved up and nothing is subtracted. -/
theorem crcShift8_lowByte (acc : Half) : crcShift8 (unle16 (lo8 acc) 0) = acc <<< 8 := by
  have hlow : (unle16 (lo8 acc) 0).toNat = acc.toNat % 2 ^ 8 := by rw [toNat_unle16, toNat_lo8]; simp
  apply BitVec.eq_of_toNat_eq
  rw [crcShift8_eq_iterate, toNat_crcShift_iterate_of_lt 8 (by omega), hlow, BitVec.toNat_shiftLeft, Nat.shiftLeft_eq]
  omega

/-- The eight shifts move the low byte up and give the table's entry for the high one (40_crc.md R134). -/
theorem crcStep_eq_crcShift8 (acc : Half) (b : Byte) : crcStep acc b = crcShift8 (acc ^^^ unle16 0 b) := by
  have hsplit : acc ^^^ unle16 0 b = unle16 (lo8 acc) 0 ^^^ unle16 0 (hi8 acc ^^^ b) := by
    conv_lhs => rw [← unle16_lo8_hi8 acc]
    rw [← unle16_xor, ← unle16_xor]
    simp
  rw [hsplit, crcShift8_xor, crcShift8_lowByte]
  rfl

/-- Settles O7: the bit-serial form is the eight shifts, with the byte written as a high byte. -/
theorem crcStepIsBitSerial : Obligations.CrcStepIsBitSerial := crcStep_eq_crcShift8

theorem crcStep_injective_acc (b : Byte) : Function.Injective fun acc => crcStep acc b := fun acc acc' h => by
  simp only [crcStep_eq_crcShift8] at h
  exact (BitVec.xor_left_inj _).1 (crcShift8_injective h)

theorem crcStep_injective_byte (acc : Half) : Function.Injective fun b => crcStep acc b := fun b b' h => by
  simp only [crcStep_eq_crcShift8] at h
  exact (unle16_inj.1 ((BitVec.xor_right_inj _).1 (crcShift8_injective h))).2

/-- From zero a step reads the byte's entry. -/
theorem crcStep_zero_left (b : Byte) : crcStep 0 b = crcTable b := by
  rw [crcStep_eq_crcShift8]
  exact congrArg _ BitVec.zero_xor

/-- A byte equal to the accumulator's high byte cancels it. -/
theorem crcStep_hi8 (acc : Half) : crcStep acc (hi8 acc) = acc <<< 8 := by
  rw [crcStep, ← hi8, BitVec.xor_self]
  exact (congrArg _ crcTable_zero).trans BitVec.xor_zero

/-- Only the accumulator that is the byte in the high place is stepped to zero. -/
theorem crcStep_eq_zero {acc : Half} {b : Byte} (h : crcStep acc b = 0) : acc = unle16 0 b := by
  rw [crcStep_eq_crcShift8, ← crcShift8_zero] at h
  exact BitVec.xor_eq_zero_iff.1 (crcShift8_injective h)

/-! ## A fold of steps -/

theorem foldl_crcStep_injective (v : List Byte) : Function.Injective (v.foldl crcStep) := by
  induction v with
  | nil => exact Function.injective_id
  | cons b v ih => exact ih.comp (crcStep_injective_acc b)

/-- Bytes behind two sequences neither add nor remove a difference of their checksums. -/
theorem checksum_append_right_inj {s t : List Byte} (v : List Byte) :
    checksum (s ++ v) = checksum (t ++ v) ↔ checksum s = checksum t := by
  rw [checksum_append, checksum_append]
  exact (foldl_crcStep_injective v).eq_iff

/-- Exchanging one byte for another changes the checksum (40_crc.md R136 (e)). -/
theorem checksum_set_ne {s : List Byte} {i : Nat} {b : Byte} (hi : i < s.length) (hb : b ≠ byteAt s i) :
    checksum (s.set i b) ≠ checksum s := by
  obtain ⟨u, v, hs, -, hset⟩ := List.exists_of_set (a' := b) hi
  have hbyte : byteAt s i = s[i] := List.getD_eq_getElem s 0 hi
  rw [← hbyte] at hs
  intro h
  rw [hset, congrArg checksum hs, List.append_cons, List.append_cons u (byteAt s i), checksum_append_right_inj,
    checksum_snoc, checksum_snoc] at h
  exact hb (crcStep_injective_byte _ h)

theorem flippedByte_ne (b : Byte) (j : Fin 8) : b ^^^ (1#8 <<< j.val) ≠ b := by
  have hmask : 1#8 <<< j.val ≠ 0 := (by decide : ∀ j : Fin 8, 1#8 <<< j.val ≠ 0) j
  intro h
  exact hmask ((BitVec.xor_right_inj b).1 (h.trans BitVec.xor_zero.symm))

/-- Settles O10: an inverted bit exchanges its byte for another. -/
theorem checksumDetectsOneBit : Obligations.ChecksumDetectsOneBit := fun _ _ j hi =>
  checksum_set_ne hi (flippedByte_ne _ j)

/-- No byte but zero has itself, in the high place, as its table entry. -/
theorem eq_zero_of_crcTable_eq : ∀ d : Byte, crcTable d = unle16 0 d → d = 0 := by decide +kernel

/-- Settles O11: by linearity two swapped bytes leave a difference that depends on theirs only. -/
theorem checksumDetectsSwap : Obligations.ChecksumDetectsSwap := by
  intro u v x y hxy heq
  rw [checksum_append_right_inj, checksum_append, checksum_append] at heq
  have hzero : crcStep (crcStep (checksum u) x ^^^ crcStep (checksum u) y) (y ^^^ x) = 0 := by
    rw [crcStep_xor]; exact BitVec.xor_eq_zero_iff.2 heq
  have hinner : crcStep (checksum u) x ^^^ crcStep (checksum u) y = crcTable (y ^^^ x) := by
    rw [← crcStep_xor, BitVec.xor_self, BitVec.xor_comm x]
    exact crcStep_zero_left _
  have hd := eq_zero_of_crcTable_eq _ (hinner ▸ crcStep_eq_zero hzero)
  exact hxy (BitVec.xor_eq_zero_iff.1 hd).symm

/-! ## Linearity and the residue -/

theorem foldl_crcStep_xorBytes {s t : List Byte} (h : s.length = t.length) (acc acc' : Half) :
    (xorBytes s t).foldl crcStep (acc ^^^ acc') = s.foldl crcStep acc ^^^ t.foldl crcStep acc' := by
  induction s generalizing t acc acc' with
  | nil => cases t with
    | nil => rfl
    | cons c t => cases h
  | cons b s ih => cases t with
    | nil => cases h
    | cons c t =>
      rw [List.foldl_cons, List.foldl_cons, ← ih (Nat.succ.inj h), ← crcStep_xor]
      rfl

theorem checksum_replicate_zero (k : Nat) : checksum (List.replicate k 0x00#8) = 0 := by
  induction k with
  | zero => rfl
  | succ k ih => rw [List.replicate_succ', checksum_snoc, ih, crcStep_zero_left]; exact crcTable_zero

/-- Settles O8: the fold is linear in the accumulator and the bytes together, and zeros leave the initial one. -/
theorem checksumIsLinear : Obligations.ChecksumIsLinear :=
  ⟨fun _ _ h => foldl_crcStep_xorBytes h crcInit crcInit,
    fun k s => by rw [checksum_append, checksum_replicate_zero]; rfl⟩

/-- Appended high byte first, a checksum is shifted out (40_crc.md R136 (g)). -/
theorem checksum_append_own (s : List Byte) : checksum (s ++ [hi8 (checksum s), lo8 (checksum s)]) = 0 := by
  have hlow : lo8 (checksum s) = hi8 (checksum s <<< 8) := by
    apply BitVec.eq_of_toNat_eq
    rw [toNat_lo8, toNat_hi8, BitVec.toNat_shiftLeft, Nat.shiftLeft_eq]
    omega
  rw [List.append_cons, checksum_snoc, checksum_snoc, crcStep_hi8, hlow, crcStep_hi8, ← BitVec.shiftLeft_add]
  exact BitVec.shiftLeft_eq_zero (by decide)

/-- Settles O9: an injective map of the finite accumulator is a bijection. -/
theorem crcStepBijectiveAndResidue : Obligations.CrcStepBijectiveAndResidue :=
  ⟨fun b => (crcStep_injective_acc b).bijective_of_finite, crcStep_injective_byte, checksum_append_own,
    by decide +kernel⟩

/-! ## The listing -/

theorem crcListing_eq_map : crcListing = (List.finRange 256).map fun i => crcTable (BitVec.ofFin i) := by
  decide +kernel

/-- Settles O6: the listing is the table in index order, and the table is injective. -/
theorem crcTableAsListed : Obligations.CrcTableAsListed := by
  unfold Obligations.CrcTableAsListed
  rw [crcListing_eq_map]
  refine ⟨by rw [List.length_map, List.length_finRange], ?_, fun i => ?_⟩
  · exact (List.nodup_finRange 256).map (crcTable_injective.comp fun _ _ => congrArg BitVec.toFin)
  · have hi : i.toNat < (List.finRange 256).length := by rw [List.length_finRange]; exact i.isLt
    rw [List.getElem?_map, List.getElem?_eq_getElem hi, List.getElem_finRange]
    rfl

end Sys2Proof.Machine
end

section
/-! PROOFS. A valid frame with one byte changed (42_decode_validate.md R188). -/

namespace Sys2Proof.Machine

/-! ## The tests of `decode` that fail -/

theorem decodeFrame_of_wrong_header {d : List Byte} (h : byteAt d 0 ≠ hdr0 ∨ byteAt d 1 ≠ hdr1) :
    decodeFrame d = .malformed := by
  rw [decodeFrame, if_pos h, ite_self]

/-- The checksum is the last of the tests (42_decode_validate.md R170). -/
theorem decodeFrame_of_wrong_checksum {d : List Byte} (hmin : frameMin ≤ d.length) (hhdr0 : byteAt d 0 = hdr0)
    (hhdr1 : byteAt d 1 = hdr1) (htotal : prefixLen + (declaredLen d).toNat + fcsLen = d.length)
    (hsum : checksum (d.take (d.length - 2)) ≠ trailingField d) : decodeFrame d = .checksumMismatch := by
  rw [decodeFrame, if_neg hmin.not_gt, if_neg (by simp [hhdr0, hhdr1]), if_neg (not_not.2 htotal), if_pos hsum]

/-! ## One byte exchanged -/

section
variable {d : List Byte} {i : Nat} {b : Byte}

theorem byteAt_set_self (hi : i < d.length) : byteAt (d.set i b) i = b := by
  rw [byteAt, List.getD_eq_getElem?_getD, List.getElem?_set_self hi, Option.getD_some]

theorem byteAt_set_other {k : Nat} (hk : i ≠ k) : byteAt (d.set i b) k = byteAt d k := by
  rw [byteAt, List.getD_eq_getElem?_getD, List.getElem?_set_ne hk, byteAt, List.getD_eq_getElem?_getD]

theorem byteAt_set_ne (hi : i < d.length) (hb : b ≠ byteAt d i) : byteAt (d.set i b) i ≠ byteAt d i := by
  rwa [byteAt_set_self hi]

/-- A two-byte field with one of its bytes exchanged. -/
theorem unle16_byteAt_set_ne (hi : i < d.length) (hb : b ≠ byteAt d i) {j k : Nat} (hfield : i = j ∨ i = k) :
    unle16 (byteAt (d.set i b) j) (byteAt (d.set i b) k) ≠ unle16 (byteAt d j) (byteAt d k) := by
  intro h
  obtain ⟨hlow, hhigh⟩ := unle16_inj.1 h
  rcases hfield with rfl | rfl
  · exact byteAt_set_ne hi hb hlow
  · exact byteAt_set_ne hi hb hhigh

theorem declaredLen_set_ne (hi : i < d.length) (hb : b ≠ byteAt d i) (hfield : i = 3 ∨ i = 4) :
    declaredLen (d.set i b) ≠ declaredLen d := unle16_byteAt_set_ne hi hb hfield

theorem declaredLen_set_other (h3 : i ≠ 3) (h4 : i ≠ 4) : declaredLen (d.set i b) = declaredLen d := by
  rw [declaredLen, byteAt_set_other h3, byteAt_set_other h4, declaredLen]

theorem trailingField_set_ne (hi : i < d.length) (hb : b ≠ byteAt d i) (hfield : i = d.length - 2 ∨ i = d.length - 1) :
    trailingField (d.set i b) ≠ trailingField d := by
  rw [trailingField, List.length_set]
  exact unle16_byteAt_set_ne hi hb hfield

theorem trailingField_set_other (hi : i < d.length - 2) : trailingField (d.set i b) = trailingField d := by
  rw [trailingField, List.length_set, byteAt_set_other (by omega), byteAt_set_other (by omega), trailingField]

/-- The exchanged byte is on one side of the comparison only: among the bytes summed, or in the trailing field. -/
theorem checksum_set_ne_trailingField_set (hi : i < d.length) (hb : b ≠ byteAt d i)
    (hsum : checksum (d.take (d.length - 2)) = trailingField d) :
    checksum ((d.set i b).take ((d.set i b).length - 2)) ≠ trailingField (d.set i b) := by
  rw [List.length_set]
  by_cases hsummed : i < d.length - 2
  · have htake : i < (d.take (d.length - 2)).length := by rw [List.length_take]; omega
    have hbyte : byteAt (d.take (d.length - 2)) i = byteAt d i := by
      conv_rhs => rw [← List.take_append_drop (d.length - 2) d, byteAt_append_of_lt _ htake]
    rw [List.take_set, trailingField_set_other hsummed, ← hsum]
    exact checksum_set_ne htake (hbyte ▸ hb)
  · rw [List.take_set_of_le (by omega), hsum]
    exact (trailingField_set_ne hi hb (by omega)).symm

/-- One exchanged byte of a valid frame is never accepted, and its place gives the verdict. -/
theorem decodeFrame_set (hvalid : validFrame d = true) (hi : i < d.length) (hb : b ≠ byteAt d i) :
    decodeFrame (d.set i b) = if i = 0 ∨ i = 1 ∨ i = 3 ∨ i = 4 then .malformed else .checksumMismatch := by
  obtain ⟨hmin, hhdr0, hhdr1, htotal, hsum⟩ := validFrame_iff.1 hvalid
  split
  next hplace =>
    rcases hplace with rfl | rfl | hfield
    · exact decodeFrame_of_wrong_header (.inl (hhdr0 ▸ byteAt_set_ne hi hb))
    · exact decodeFrame_of_wrong_header (.inr (hhdr1 ▸ byteAt_set_ne hi hb))
    · have hlen := BitVec.toNat_ne_iff_ne.2 (declaredLen_set_ne hi hb hfield)
      apply decodeFrame_of_wrong_length
      rw [List.length_set]
      omega
  next hplace =>
    simp only [not_or] at hplace
    obtain ⟨h0, h1, h3, h4⟩ := hplace
    apply decodeFrame_of_wrong_checksum
    · rwa [List.length_set]
    · rwa [byteAt_set_other h0]
    · rwa [byteAt_set_other h1]
    · rwa [declaredLen_set_other h3 h4, List.length_set]
    · exact checksum_set_ne_trailingField_set hi hb hsum

end

/-- Settles O37: an inverted bit exchanges its byte for another. -/
theorem flippedBitRejected : Obligations.FlippedBitRejected := fun _ _ j hvalid hi =>
  decodeFrame_set hvalid hi (flippedByte_ne _ j)

end Sys2Proof.Machine
end

section
/-! PROOFS. The commands of the CRC unit (40_crc.md R141, R142). -/

namespace Sys2Proof.Machine

theorem illegalWord_of_illegalFields {w : CmdWord} (h : IllegalFields w) : IllegalWord w :=
  illegalWord_of_forall_not fun _ hi => hi.not_illegalFields h

/-- A format N word takes no operand (30_encoding.md R101). -/
theorem illegalWord_of_operand {op : Byte} (hop : op ∈ [0x00#8, 0x01#8, 0x10#8, 0x21#8, 0x31#8]) {arg : Half}
    (harg : arg ≠ 0) : IllegalWord (cmdWord op arg) :=
  illegalWord_of_illegalFields (.inr (.inl ⟨by rwa [opOf_cmdWord], by rwa [argOf_cmdWord]⟩))

theorem argHighOf_cmdWord (op high imm8 : Byte) : argHighOf (cmdWord op (high ++ imm8)) = high := by
  apply BitVec.eq_of_toNat_eq
  have harg : (high ++ imm8 : Half).toNat = high.toNat * 2 ^ 8 + imm8.toNat := toNat_unle16 imm8 high
  rw [toNat_argHighOf, toNat_cmdWord, harg]
  omega

/-- A format B word has a zero byte above its operand (30_encoding.md R101). -/
theorem illegalWord_of_highByte {op : Byte} (hop : op ∈ [0x02#8, 0x11#8, 0x12#8, 0x30#8]) {high : Byte}
    (hhigh : high ≠ 0) (imm8 : Byte) : IllegalWord (cmdWord op (high ++ imm8)) :=
  illegalWord_of_illegalFields (.inr (.inr (.inl ⟨by rwa [opOf_cmdWord], by rwa [argHighOf_cmdWord]⟩)))

/-- A format B word, its reserved byte written with the operation (30_encoding.md R102). -/
theorem cmdWord_byteArg (op imm8 : Byte) : cmdWord op (byteArg imm8) = unle16 0 op ++ imm8 := by
  apply BitVec.eq_of_toNat_eq
  erw [toNat_cmdWord, toNat_byteArg, BitVec.toNat_append, ← Nat.shiftLeft_add_eq_or_of_lt imm8.isLt, toNat_unle16]
  rw [Nat.shiftLeft_eq, BitVec.ofNat_eq_ofNat, BitVec.toNat_zero]
  omega

/-- Settles O17: the command has one arm, and its word is of format N. -/
theorem crcClearClears : Obligations.CrcClearClears := fun _ =>
  ⟨rfl, rfl, fun _ harg => illegalWord_of_operand (by decide) harg⟩

/-- Settles O18: the command has one arm, and its word is of format B. -/
theorem crcByteFolds : Obligations.CrcByteFolds := fun _ imm8 =>
  ⟨congrArg _ (cmdWord_byteArg 0x02 imm8), rfl, fun _ hhigh => illegalWord_of_highByte (by decide) hhigh imm8⟩

end Sys2Proof.Machine
end

section
/-! The staging commands and the TxByte step (41_encode.md R152 to R159). -/

namespace Sys2Proof.Machine

/-! ## The staging commands -/

/-- Settles O19: BadState is the command's one test, and its word is of format N. -/
theorem txClearEmptiesStaging : Obligations.TxClearEmptiesStaging := fun _ =>
  ⟨rfl, whenTxIdle_send _, whenTxIdle_idle _, fun _ harg => illegalWord_of_operand (by decide) harg⟩

/-- Below the size of a buffer `tx_len` does not wrap (10_state.md R28). -/
theorem toNat_len_succ {t : TxEngine} {c : Config} (h : t.len.toNat < c.payloadMax.val) :
    (t.len + 1).toNat = t.len.toNat + 1 := by
  have hmax := c.payloadMax.isLt
  rw [BitVec.toNat_add, show (1 : Half).toNat = 1 from rfl, Nat.mod_eq_of_lt (by omega)]

theorem exec_txPush_of_full {s : State} (b : Byte) (hidle : s.tx.state = .idle)
    (hfull : s.tx.len.toNat = s.cfg.payloadMax.val) : exec (.txPush b) s = .next (takeFault .overflow s) :=
  (whenTxIdle_idle _ hidle).trans (if_pos hfull)

/-- Settles O20: with room the byte is stored at the cell `tx_len`, by the rules of a buffer's cells. -/
theorem txPushAppends : Obligations.TxPushAppends := by
  intro s b
  refine ⟨congrArg _ (cmdWord_byteArg 0x11 b), whenTxIdle_send _, exec_txPush_of_full b, fun hidle hroom => ?room,
    fun _ hhigh => illegalWord_of_highByte (by decide) hhigh b⟩
  case room =>
    exact ⟨Memory.write s.tx.buf s.tx.len.toNat b, answers_txPush b hidle hroom s.env, toNat_len_succ hroom,
      Memory.read_write_same _ _ b, fun _ hother => Memory.read_write_other _ b hother⟩

/-- Settles O21: BadState is the command's one test, and its word is of format B. -/
theorem txSendStartsFrame : Obligations.TxSendStartsFrame := fun _ id =>
  ⟨congrArg _ (cmdWord_byteArg 0x12 id), whenTxIdle_send _, whenTxIdle_idle _,
    fun _ hhigh => illegalWord_of_highByte (by decide) hhigh id⟩

/-! ## The byte of each index (41_encode.md R158) -/

section
variable {size : Nat} {t : TxEngine}

theorem txByteAt_of_prefix {i : Nat} (hi : i < t.prefixBytes.length) (h : t.idx.toNat = i) :
    txByteAt size t = .ok t.prefixBytes[i] := by
  subst h
  have hprefix := txByteAt_prefix (size := size) hi
  rw [List.getElem?_eq_getElem hi] at hprefix
  cases hb : txByteAt size t with
  | ok b => rw [hb] at hprefix; exact congrArg _ (Option.some.inj hprefix)
  | error f => rw [hb] at hprefix; cases hprefix

theorem txByteAt_of_payload (hsize : t.len.toNat ≤ size) (h8 : 8 ≤ t.idx.toNat)
    (hpayload : t.idx.toNat < 8 + t.len.toNat) {b : Byte} (hb : Memory.read t.buf (t.idx.toNat - 8) = some b) :
    txByteAt size t = .ok b := by
  rw [txByteAt_of_ge h8, if_pos hpayload, readCell_ok (by omega) hb]

theorem txByteAt_of_low (h : t.idx.toNat = 8 + t.len.toNat) : txByteAt size t = .ok (lo8 t.crc) := by
  rw [txByteAt_of_ge (by omega), if_neg (by omega), if_pos h]

theorem txByteAt_of_high (h : t.idx.toNat = 9 + t.len.toNat) : txByteAt size t = .ok (hi8 t.crc) := by
  rw [txByteAt_of_ge (by omega), if_neg (by omega), if_neg (by omega), if_pos h]

end

/-- Settles O30: index by index the eight bytes before the payload, then its cells, which the invariant says hold a
value, then the trailing field. -/
theorem txByteTable : Obligations.TxByteTable := by
  intro size t hinv
  obtain ⟨hlen, -, -, hcells, -, -⟩ := hinv
  have hprefix {i : Nat} (hi : i < 8) (h : t.idx.toNat = i) : txByteAt size t = .ok t.prefixBytes[i] :=
    txByteAt_of_prefix hi h
  refine ⟨hprefix (i := 0) (by omega), hprefix (i := 1) (by omega), hprefix (i := 2) (by omega),
    hprefix (i := 3) (by omega), hprefix (i := 4) (by omega), hprefix (i := 5) (by omega),
    hprefix (i := 6) (by omega), hprefix (i := 7) (by omega), fun h8 hpayload => ?payload, txByteAt_of_low,
    txByteAt_of_high⟩
  case payload =>
    obtain ⟨b, hb⟩ := Option.isSome_iff_exists.1 (hcells (t.idx.toNat - 8) (by omega))
    exact ⟨b, hb, txByteAt_of_payload hlen h8 hpayload hb⟩

/-! ## The TxByte step -/

theorem txAdvance_of_send {t : TxEngine} (b : Byte) (hsend : t.state = .send) :
    txAdvance b t = { t with
      crc := if t.idx.toNat < 8 + t.len.toNat then crcStep t.crc b else t.crc
      state := if t.idx.toNat = 9 + t.len.toNat then .idle else .send
      idx := if t.idx.toNat = 9 + t.len.toNat then 0 else t.idx + 1 } := by
  simp only [txAdvance, txLast, decide_eq_true_eq, hsend]

/-- Settles O31: outside SEND the sink's turn passes, in SEND it is the emission of the byte. -/
theorem txByteStep : Obligations.TxByteStep := by
  intro s ts b hrst hturns
  refine ⟨fun hidle => ?idle, fun hsend hb => ?send⟩
  case idle =>
    rw [step_eq_takeTurn hturns, takeTurn, if_neg (by simp [hrst]), sinkTurn_of_idle (s := afterTurn ts s) hidle]
  case send =>
    rw [step_sink_of_send hrst hturns hsend hb, afterEmit, afterTurn_tx, txAdvance_of_send b hsend]
    rfl

end Sys2Proof.Machine
end

section
/-! A whole frame out of the serializer (41_encode.md R160), and back through `decode` (42_decode_validate.md R184). -/

namespace Sys2Proof.Machine

/-! ## The run of TxByte steps -/

/-- At an index of the frame there is a byte to emit. -/
theorem TxSums.exists_txByteAt {size : Nat} {payload : List Byte} {t : TxEngine} (h : TxSums payload t)
    (hsize : t.len.toNat ≤ size) (hidx : t.idx.toNat ≤ 9 + t.len.toNat) : ∃ b, txByteAt size t = .ok b := by
  by_cases h8 : t.idx.toNat < 8
  · exact ⟨_, txByteAt_of_prefix h8 rfl⟩
  by_cases hpayload : t.idx.toNat < 8 + t.len.toNat
  · have hk : t.idx.toNat - 8 < payload.length := by rw [h.length_payload]; omega
    have hread := h.read_payload (k := t.idx.toNat - 8) (by omega)
    rw [List.getElem?_eq_getElem hk] at hread
    exact ⟨_, txByteAt_of_payload hsize (by omega) hpayload hread⟩
  by_cases hlow : t.idx.toNat = 8 + t.len.toNat
  · exact ⟨_, txByteAt_of_low hlow⟩
  · exact ⟨_, txByteAt_of_high (by omega)⟩

/-- The block once the frame of `payload` has been emitted: IDLE again, with the frame's checksum in `tx_crc`. -/
def afterFrame (payload : List Byte) (ts : List Turn) (out : List StreamByte) (s : State) : State :=
  { s with
    tx := { s.tx with state := .idle, idx := 0, crc := checksum (encodePre s.tx.cmd s.tx.seq payload) }
    env := { s.env with turns := ts, txOut := out ++ markLast (encodeFrame s.tx.cmd s.tx.seq payload) } }

/-- In SEND, `n + 1` bytes before the end of the frame, that many TxByte steps emit the rest of it. -/
theorem runSteps_sinks {payload : List Byte} {ts : List Turn} {out : List StreamByte} (n : Nat) {s : State}
    (hrst : s.env.rst = false) (hturns : s.env.turns = List.replicate (n + 1) .sink ++ ts)
    (hsend : s.tx.state = .send) (hsize : s.tx.len.toNat ≤ s.cfg.payloadMax.val) (hsums : TxSums payload s.tx)
    (hout : s.env.txOut = out ++ (markLast (encodeFrame s.tx.cmd s.tx.seq payload)).take s.tx.idx.toNat)
    (hleft : s.tx.idx.toNat + n = 9 + s.tx.len.toNat) :
    runSteps (n + 1) s = .next (afterFrame payload ts out s) := by
  induction n generalizing s with
  | zero =>
    have hlast : s.tx.idx.toNat = 9 + s.tx.len.toNat := hleft
    obtain ⟨b, hb⟩ := hsums.exists_txByteAt hsize hlast.le
    have hwhole := hsums.take_markLast_succ hb
    rw [List.take_of_length_le (by simp [hsums.length_payload]; omega)] at hwhole
    rw [runSteps_succ _ (step_sink_of_send hrst hturns hsend hb), runSteps_zero, afterEmit, afterTurn_tx,
      txAdvance_of_last b hlast, afterFrame, hwhole, ← List.append_assoc, ← hout,
      ← hsums.crc_of_field (by omega)]
    rfl
  | succ n ih =>
    have hlast : s.tx.idx.toNat ≠ 9 + s.tx.len.toNat := by omega
    have hle : s.tx.idx.toNat ≤ 9 + s.tx.len.toNat := by omega
    obtain ⟨b, hb⟩ := hsums.exists_txByteAt hsize hle
    have hnext := hsums.advance hb hle hlast
    have htake := hsums.take_markLast_succ hb
    rw [runSteps_succ _ (step_sink_of_send hrst hturns hsend hb), afterEmit, afterTurn_tx]
    rw [txAdvance_of_not_last b hlast] at hnext ⊢
    refine ih hrst rfl hsend hsize hnext ?_ ?_
    · simp only [toNat_idx_succ hle, htake, ← List.append_assoc, ← hout]
      rfl
    · simp only [toNat_idx_succ hle]
      omega

/-! ## TX_SEND and the frame -/

theorem decodeCommand_txSend (id : Byte) : decodeCommand (0x1200#16 ++ id) = .ok (.txSend id) :=
  decodeCommand_eq_ok_iff.2 (commandWord_iff.2 ⟨rfl, congrArg _ (cmdWord_byteArg 0x12 id)⟩)

/-- The HostCmd step of TX_SEND in IDLE (41_encode.md R154). -/
theorem step_txSend {s : State} {id : Byte} {ts : List Turn} {ws : List CmdWord} (hidle : s.tx.state = .idle)
    (hrst : s.env.rst = false) (hturns : s.env.turns = .host :: ts) (hin : s.env.hostIn = (0x1200#16 ++ id) :: ws) :
    step s = .next (present 0x10000#17
      { afterWord ts ws s with tx := { s.tx with cmd := id, idx := 0, crc := crcInit, state := .send } }) := by
  rw [step_eq_hostWord hrst hturns hin, hostWord_of_decode_ok (decodeCommand_txSend id)]
  exact answers_txSend id hidle _

/-- Settles O32: TX_SEND begins the sum and the frame at index 0, and the TxByte steps run to its end. -/
theorem txLaw : Obligations.TxLaw := by
  intro s id payload ts ws hidle hsize hcells hrst hturns hin
  have hcount : 11 + s.tx.len.toNat = 9 + s.tx.len.toNat + 1 + 1 := by omega
  have hturns' : s.env.turns = .host :: (List.replicate (9 + s.tx.len.toNat + 1) .sink ++ ts) := by
    rw [hturns, show 10 + s.tx.len.toNat = 9 + s.tx.len.toNat + 1 by omega, List.cons_append]
  rw [hcount, runSteps_succ _ (step_txSend hidle hrst hturns' hin)]
  refine Eq.trans (runSteps_sinks (out := s.env.txOut) _ hrst rfl rfl hsize ⟨hcells, rfl⟩ ?_ ?_) ?_
  · simp [afterWord]
  · simp
  · simp [afterFrame, afterWord, hidle]

/-! ## The round trip -/

theorem toNat_len_emittedFrame {id : Byte} {seq : Half} {payload : List Byte} (h : payload.length ≤ 65535) :
    (emittedFrame id seq payload).len.toNat = (emittedFrame id seq payload).payload.length := by
  rw [emittedFrame, BitVec.toNat_ofNat, Nat.mod_eq_of_lt (by omega)]

/-- Settles O35: the encoded frame declares its payload's length and carries its own checksum, which is all that `decode`
asks of a frame. -/
theorem decodeEncodeRoundTrip : Obligations.DecodeEncodeRoundTrip := by
  intro id seq payload hlen
  rw [encodeFrame_eq_frameBytes, decodeFrame_frameBytes (toNat_len_emittedFrame hlen), framePre_emittedFrame,
    crc16_emittedFrame, if_neg (not_not.2 rfl)]
  rfl

end Sys2Proof.Machine
end

section
/-! PROOFS. One accepted byte, register by register (42_decode_validate.md R173 to R181). -/

namespace Sys2Proof.Machine

/-! ## A two-byte field written a byte at a time -/

section
variable {p q : Prop} [Decidable p] [Decidable q] (v : Half) (b : Byte)

theorem lo8_ite_setLo8_setHi8 :
    lo8 (if p then setLo8 v b else if q then setHi8 v b else v) = if p then b else lo8 v := by
  by_cases hp : p
  · simp [hp, setLo8]
  · by_cases hq : q <;> simp [hp, hq, setHi8]

theorem hi8_ite_setLo8_setHi8 (hpq : p → ¬ q) :
    hi8 (if p then setLo8 v b else if q then setHi8 v b else v) = if q then b else hi8 v := by
  by_cases hp : p
  · simp [hp, hpq hp, setLo8]
  · by_cases hq : q <;> simp [hp, hq, setHi8]

end

/-! ## The byte of an index -/

section
variable {size : Nat} {b : Byte} {r : RxEngine}

theorem rxStep_false_of_recv (h : r.state = .recv) : rxStep size b false r = rxTake size b r :=
  congrArg (rxTake size b) (rxBegin_of_recv h)

theorem rxTake_hdrBad_iff :
    (rxTake size b r).hdrBad = true ↔
      r.hdrBad = true ∨ (r.cnt.toNat = 0 ∧ b ≠ hdr0) ∨ (r.cnt.toNat = 1 ∧ b ≠ hdr1) := by
  simp only [rxTake, Bool.or_eq_true, decide_eq_true_eq, or_assoc]

/-- A payload byte with a cell goes to its cell (42_decode_validate.md R178). -/
theorem read_rxTake_buf_self (h8 : 8 ≤ r.cnt.toNat) (hL : r.cnt.toNat < 8 + r.len.toNat)
    (hsize : r.cnt.toNat - 8 < size) : Memory.read (rxTake size b r).buf (r.cnt.toNat - 8) = some b := by
  rw [read_rxTake_buf, if_pos (by omega)]

theorem read_rxTake_buf_other {a : Nat}
    (h : ¬ (8 ≤ r.cnt.toNat ∧ r.cnt.toNat < 8 + r.len.toNat ∧ r.cnt.toNat - 8 < size ∧ a = r.cnt.toNat - 8)) :
    Memory.read (rxTake size b r).buf a = Memory.read r.buf a := by
  rw [read_rxTake_buf, if_neg (by omega)]

end

/-- Settles O39: inside a datagram the byte is taken without initialisation or verdict, and each register's write is a
lemma above or its own line of `rxTake`. -/
theorem rxByteByIndex : Obligations.RxByteByIndex := by
  intro size r b hrecv
  rw [rxStep_false_of_recv hrecv]
  exact ⟨hrecv, rfl, toNat_rxTake_cnt size b r, rxTake_hdrBad_iff, rfl, lo8_ite_setLo8_setHi8 _ _,
    hi8_ite_setLo8_setHi8 _ _ (by omega), lo8_ite_setLo8_setHi8 _ _, hi8_ite_setLo8_setHi8 _ _ (by omega), rfl, rfl,
    read_rxTake_buf_self, fun _ => read_rxTake_buf_other, lo8_ite_setLo8_setHi8 _ _,
    hi8_ite_setLo8_setHi8 _ _ (by omega)⟩

/-! ## The first byte and the last -/

theorem rxBegin_result (r : RxEngine) : (rxBegin r).result = r.result := by
  unfold rxBegin
  split <;> rfl

/-- The index of the byte to come: 0 in IDLE, the count inside a datagram (42_decode_validate.md R173). -/
theorem toNat_rxBegin_cnt (r : RxEngine) :
    (rxBegin r).cnt.toNat = if r.state = .idle then 0 else r.cnt.toNat := by
  unfold rxBegin
  split <;> rfl

/-- The first byte of a datagram, whatever the registers held (42_decode_validate.md R173, R174). -/
theorem rxTake_rxInit (size : Nat) (b : Byte) (r : RxEngine) :
    rxTake size b (rxInit r) =
      { state := .recv, result := r.result, cnt := 1, hdrBad := decide (b ≠ 0x55), ctrl := 0, len := 0, seq := 0,
        cmd := 0, crc := crcStep 0x0000 b, fcs := 0, buf := r.buf } := by
  simp [rxTake, rxInit, crcInit, hdr0, sat17]

/-- Settles O40: a byte is taken after R173's initialisation, if any, and the last one adds the verdict on what it
leaves. -/
theorem rxFirstAndLastByte : Obligations.RxFirstAndLastByte := by
  intro size r b hr
  refine ⟨fun hidle => ?first, rxBegin_state hr, rxBegin_result r, ?count, rxStep_true size b r⟩
  case first => exact (congrArg (rxTake size b) (rxBegin_of_idle hidle)).trans (rxTake_rxInit size b r)
  case count => exact (toNat_rxTake_cnt size b _).trans (by rw [toNat_rxBegin_cnt])

end Sys2Proof.Machine
end

section
/-! The datagram's turn and the RxByte turns behind it (00_scope.md R7; 42_decode_validate.md R172, R184; log 6), and the
verdict on a datagram presented from IDLE (42_decode_validate.md R184). -/

namespace Sys2Proof.Machine

/-! ## Runs of RxByte turns -/

/-- A turn of the source leaves its bytes taken off the queue and accepted. -/
theorem step_afterTurn_bytes {u : Turn} (hu : u = .source ∨ u = .datagram) (ts : List Turn) (s : State) :
    step (afterTurn (u :: ts) s) = .next (afterTurn ts (afterBytes (takenBytes u s) s)) :=
  takeTurn_source_or_datagram hu (afterTurn ts s)

/-- So a run of RxByte turns goes on behind the bytes of the first. -/
theorem runSteps_sources_succ (n : Nat) (ts : List Turn) (s : State) :
    runSteps (n + 1) (afterTurn (List.replicate (n + 1) .source ++ ts) s) =
      runSteps n (afterTurn (List.replicate n .source ++ ts) (afterBytes (takenBytes .source s) s)) :=
  runSteps_succ n (step_afterTurn_bytes (.inl rfl) _ s)

/-- RxByte turns that take no byte pass, all of them. -/
theorem runSteps_sources_of_none_taken (n : Nat) (ts : List Turn) {s : State} (hnone : takenBytes .source s = []) :
    runSteps n (afterTurn (List.replicate n .source ++ ts) s) = .next (afterTurn ts s) := by
  induction n with
  | zero => rfl
  | succ n ih => rw [runSteps_sources_succ, hnone, afterBytes_nil, ih]

/-- RxByte turns at a stretch of one datagram take every byte of it, one each. -/
theorem runSteps_sources {bytes rest : List StreamByte} (ts : List Turn) {s : State} (hone : InOneDatagram bytes)
    (hrst : s.env.rst = false) (hr : s.rx.state ≠ .done) (hin : s.env.rxIn = bytes ++ rest) :
    runSteps bytes.length (afterTurn (List.replicate bytes.length .source ++ ts) s) =
      .next (afterTurn ts (afterBytes bytes s)) := by
  induction bytes generalizing s with
  | nil => rfl
  | cons c bytes ih =>
    have htaken : takenBytes .source s = [c] := by simp [takenBytes, hrst, hr, hin]
    rw [List.length_cons, runSteps_sources_succ, htaken]
    by_cases hne : bytes = []
    · rw [hne]
      rfl
    · obtain ⟨hc, hrest⟩ := hone.of_cons hne
      have hopen : (afterBytes [c] s).rx.state ≠ .done := by
        rw [afterBytes, rxSteps_cons, rxSteps_nil, rxStep_state _ _ _ hr, hc]
        simp
      rw [ih (s := afterBytes [c] s) hrest hrst hopen (by simp [afterBytes, hin])]
      simp [afterBytes, rxSteps_cons, Nat.add_comm]

/-! ## The datagram's turn -/

/-- A datagram ends at its `last`, whatever stands behind it. -/
theorem splitDatagram_markLast_append {d : List Byte} (hd : d ≠ []) (bytes : List StreamByte) :
    splitDatagram (markLast d ++ bytes) = (markLast d, bytes) := by
  fun_induction markLast d with
  | case1 => exact absurd rfl hd
  | case2 b => rfl
  | case3 b c d ih => simp [splitDatagram, ih]

/-- With no `last` in it the whole queue is the datagram. -/
theorem splitDatagram_of_not_ended {bytes : List StreamByte} (h : ∀ c ∈ bytes, c.2 = false) :
    splitDatagram bytes = (bytes, []) := by
  induction bytes with
  | nil => rfl
  | cons c bytes ih =>
    obtain ⟨b, last⟩ := c
    obtain ⟨rfl, hbytes⟩ := List.forall_mem_cons.1 h
    simp [splitDatagram, ih hbytes]

/-- While `rst` is asserted or a datagram is held, both ways pass; otherwise both take the bytes up to the next `last`. -/
theorem step_datagram_eq_runSteps_sources (s : State) (ts : List Turn) :
    step (afterTurn (.datagram :: ts) s) =
      runSteps (splitDatagram s.env.rxIn).1.length
        (afterTurn (List.replicate (splitDatagram s.env.rxIn).1.length .source ++ ts) s) := by
  rw [step_afterTurn_bytes (.inr rfl)]
  by_cases hpass : s.env.rst = true ∨ s.rx.state = .done
  · have hnone : ∀ u, takenBytes u s = [] := fun u => if_pos hpass
    rw [runSteps_sources_of_none_taken _ ts (hnone .source), hnone, afterBytes_nil]
  · have htaken : takenBytes .datagram s = (splitDatagram s.env.rxIn).1 := if_neg hpass
    obtain ⟨hrst, hr⟩ := not_or.1 hpass
    rw [htaken, runSteps_sources ts (inOneDatagram_splitDatagram _) (by simpa using hrst) hr
      (splitDatagram_append _).symm]

/-- Settles O47: a turn of the datagram takes what a run of RxByte turns takes, or both pass. -/
theorem datagramTurnIsByteTurns : Obligations.DatagramTurnIsByteTurns :=
  ⟨step_datagram_eq_runSteps_sources, fun _ bytes hd => splitDatagram_markLast_append hd bytes,
    fun _ => splitDatagram_of_not_ended⟩

/-! ## The verdict and the held datagram -/

/-- A buffer that holds every payload leaves the verdict to `decode` (log 14). -/
theorem blockVerdict_of_full_size {size : Nat} (hsize : size = 65535) (d : List Byte) :
    (blockVerdict size d = .malformed ↔ decodeFrame d = .malformed) ∧
      (blockVerdict size d = .checksumMismatch ↔ decodeFrame d = .checksumMismatch) := by
  have hfits : ∀ len : Half, ¬ size < len.toNat := fun len => by have := len.isLt; omega
  rw [blockVerdict]
  cases decodeFrame d <;> simp [hfits]

/-- An Ok payload that fits is Ok for the block too. -/
theorem blockVerdict_of_decodeFrame_ok {size : Nat} {d payload : List Byte} {cmd ctrl : Byte} {seq len : Half}
    (h : decodeFrame d = .ok cmd payload ctrl seq len) (hsize : len.toNat ≤ size) : blockVerdict size d = .ok := by
  simp [blockVerdict, h, hsize]

/-- What an Ok datagram says of its bytes (42_decode_validate.md R170). -/
theorem decodeFrame_ok_fields {d payload : List Byte} {cmd ctrl : Byte} {seq len : Half}
    (h : decodeFrame d = .ok cmd payload ctrl seq len) :
    prefixLen + (declaredLen d).toNat + fcsLen = d.length ∧ cmd = byteAt d 7 ∧
      payload = (d.drop 8).take (declaredLen d).toNat ∧ ctrl = byteAt d 2 ∧
      seq = unle16 (byteAt d 5) (byteAt d 6) ∧ len = declaredLen d := by
  obtain ⟨hmin, hhdr0, hhdr1, htotal, hsum⟩ := validFrame_iff.1 (validFrame_iff_decodeFrame_ok.2 ⟨_, _, _, _, _, h⟩)
  rw [decodeFrame, if_neg hmin.not_gt, if_neg (by simp [hhdr0, hhdr1]), if_neg (not_not.2 htotal),
    if_neg (not_not.2 hsum)] at h
  obtain ⟨rfl, rfl, rfl, rfl, rfl⟩ := DecodeResult.ok.inj h
  exact ⟨htotal, rfl, rfl, rfl, rfl, rfl⟩

/-- The registers after an Ok datagram that fits hold its fields and its payload. -/
theorem RxTaken.holds_of_decodeFrame_ok {size : Nat} {d payload : List Byte} {r : RxEngine} {cmd ctrl : Byte}
    {seq len : Half} (h : RxTaken size d r) (hok : decodeFrame d = .ok cmd payload ctrl seq len)
    (hsize : len.toNat ≤ size) :
    r.cmd = cmd ∧ r.len = len ∧ r.seq = seq ∧ r.ctrl = ctrl ∧ Memory.firstN r.buf len.toNat = some payload := by
  obtain ⟨htotal, rfl, rfl, rfl, rfl, rfl⟩ := decodeFrame_ok_fields hok
  rw [prefixLen, fcsLen] at htotal
  refine ⟨h.cmd, h.len, h.seq, h.ctrl, Memory.firstN_eq_some.2 ⟨by simp; omega, fun k hk => ?_⟩⟩
  rw [h.cells k (h.len ▸ hk) (by omega) (by omega), List.getElem?_take_of_lt hk, List.getElem?_drop, byteAt,
    List.getD_eq_getElem?_getD, List.getElem?_eq_getElem (by omega)]
  rfl

/-- Settles O41: the RxByte turns take the whole datagram, and from IDLE the registers are those of its bytes. -/
theorem rxLaw : Obligations.RxLaw := by
  intro s d ts bytes hidle hd hrst hturns hin
  obtain ⟨htaken, hverdict⟩ := rxSteps_markLast_taken (size := s.cfg.payloadMax.val) hd hidle
  have hr : s.rx.state ≠ .done := by simp [hidle]
  have hrun := runSteps_sources ts (inOneDatagram_markLast d) hrst hr hin
  rw [length_markLast, ← hturns] at hrun
  refine ⟨rxSteps s.cfg.payloadMax.val (markLast d) s.rx, ?run, rxSteps_markLast_state hd hr, hverdict,
    fun hsize => ?full, fun cmd payload ctrl seq len hok hsize => ?held⟩
  case run =>
    rw [show s = afterTurn s.env.turns s from rfl, hrun]
    simp [afterBytes, afterTurn, hin]
  case full =>
    rw [hverdict]
    exact blockVerdict_of_full_size hsize d
  case held =>
    exact ⟨hverdict.trans (blockVerdict_of_decodeFrame_ok hok hsize), htaken.holds_of_decodeFrame_ok hok hsize⟩

end Sys2Proof.Machine
end

section
/-! No agent's turn stops a block with the invariant (60_exceptions.md R252, R254), and a step runs what is decoded
(43_host_access.md R201; log 18). -/

namespace Sys2Proof.Machine

/-! ## Each agent's turn has a next state -/

theorem hostTurn_exists_next {s : State} (hinv : BlockInv s) : ∃ t, hostTurn s = .next t := by
  cases hin : s.env.hostIn with
  | nil => exact ⟨s, hostTurn_of_hostIn_nil hin⟩
  | cons w ws =>
    obtain ⟨t, r, hword, -⟩ := hostWord_answers (s := { s with env := { s.env with hostIn := ws } }) w hinv
    exact ⟨t, by rw [hostTurn, hin, ← hword]⟩

theorem sinkTurn_exists_next {s : State} (hinv : BlockInv s) : ∃ t, sinkTurn s = .next t := by
  cases hstate : s.tx.state with
  | idle => exact ⟨s, sinkTurn_of_idle hstate⟩
  | send =>
    obtain ⟨b, hb⟩ := hinv.1.exists_txByteAt hstate
    exact ⟨afterEmit b s, (if_pos hstate).trans (txByte_eq hb)⟩

theorem takeTurn_exists_next {s : State} (hinv : BlockInv s) (u : Turn) : ∃ t, takeTurn u s = .next t := by
  cases u with
  | rstAssert | rstRelease => exact ⟨_, rfl⟩
  | source => exact ⟨_, takeTurn_source_or_datagram (.inl rfl) s⟩
  | datagram => exact ⟨_, takeTurn_source_or_datagram (.inr rfl) s⟩
  | host =>
    rw [takeTurn]
    split
    · exact ⟨s, rfl⟩
    · exact hostTurn_exists_next hinv
  | sink =>
    rw [takeTurn]
    split
    · exact ⟨s, rfl⟩
    · exact sinkTurn_exists_next hinv

/-- Settles O53: a step is the turn at the head of the list, and taking it off keeps the invariant. -/
theorem noTurnStops : Obligations.NoTurnStops := by
  intro s hinv hturns
  obtain ⟨u, ts, hcons⟩ := List.exists_cons_of_ne_nil hturns
  rw [step_eq_takeTurn hcons]
  exact takeTurn_exists_next (s := afterTurn ts s) hinv u

/-! ## What is placed next is what runs -/

/-- A datagram with the bytes of a wire row runs that row. -/
theorem wireDatagram_markLast {bytes : List Byte} {i : Instr} (h : decodeWire bytes = .ok i) (s : State) :
    wireDatagram (markLast bytes) s = exec i s := by
  simp only [wireDatagram, map_fst_markLast, Sys2Proof.decode, h, if_true]

theorem decodeWire_ne_nil {bytes : List Byte} {i : Instr} (h : decodeWire bytes = .ok i) : bytes ≠ [] := by
  rintro rfl
  cases h

/-- The bytes of a wire row, placed as the source's next datagram, are split off whole. -/
theorem step_placeDatagram {bytes : List Byte} {i : Instr} (h : decodeWire bytes = .ok i) (s : State) :
    step (placeDatagram bytes s) = exec i (releaseReset s) := by
  have hsplit : splitDatagram (placeDatagram bytes s).env.rxIn = (markLast bytes, s.env.rxIn) :=
    splitDatagram_markLast_append (decodeWire_ne_nil h) s.env.rxIn
  rw [step_eq_takeTurn (s := placeDatagram bytes s) rfl, takeTurn, if_neg (by simp [placeDatagram]), datagramTurn,
    afterTurn_env, hsplit]
  exact wireDatagram_markLast h _

theorem step_placeEncoded {e : Encoded} {i : Instr} (h : Sys2Proof.decode e = .ok i) (s : State) :
    step (placeEncoded e s) = exec i (releaseReset s) := by
  cases e with
  | command w => exact (step_placeCommand w s).trans (hostWord_of_decode_ok h _)
  | wire bytes => exact step_placeDatagram h s

theorem decodeTableWord_eq_some_iff {nbits w : Nat} {i : Instr} :
    decodeTableWord nbits w = some i ↔ Sys2Proof.decode (tableWord nbits w) = .ok i := by
  rw [decodeTableWord]
  cases Sys2Proof.decode (tableWord nbits w) <;> simp [Except.toOption]

/-- Settles O46: a row runs at the port it is placed at, and a host's word at the command port. -/
theorem stepRunsDecoded : Obligations.StepRunsDecoded :=
  ⟨fun s _ _ _ h => step_placeEncoded (decodeTableWord_eq_some_iff.1 h) s,
    fun _ _ _ _ _ hrst hturns hin h => (step_eq_hostWord hrst hturns hin).trans (hostWord_of_decode_ok h _)⟩

end Sys2Proof.Machine
end

section
/-! The host access commands (43_host_access.md R200 to R207). -/

namespace Sys2Proof.Machine

/-! ## NOP, CLR_ERR and RX_RELEASE -/

/-- Settles O16: the command has one arm, and its word is of format N. -/
theorem nopOnlyResponds : Obligations.NopOnlyResponds := fun _ =>
  ⟨rfl, rfl, fun _ harg => illegalWord_of_operand (by decide) harg⟩

/-- Settles O26: the command has one arm, and its word is of format N. -/
theorem clrErrClearsMask : Obligations.ClrErrClearsMask := fun _ =>
  ⟨rfl, rfl, fun _ harg => illegalWord_of_operand (by decide) harg⟩

theorem exec_rxRelease_of_not_done {s : State} (h : s.rx.state ≠ .done) :
    exec .rxRelease s = .next (takeFault .badState s) := if_pos h

theorem exec_rxRelease_of_done {s : State} (h : s.rx.state = .done) :
    exec .rxRelease s = .next (respond 0 { s with rx := { s.rx with state := .idle, result := .none } }) :=
  if_neg (not_not.2 h)

/-- Settles O24: BadState is the command's one test, and its word is of format N. -/
theorem rxReleaseDiscards : Obligations.RxReleaseDiscards := fun _ =>
  ⟨rfl, exec_rxRelease_of_not_done, exec_rxRelease_of_done, fun _ harg => illegalWord_of_operand (by decide) harg⟩

/-! ## RX_READ -/

theorem gateOpen_eq_false_iff {s : State} : gateOpen s = false ↔ s.rx.state ≠ .done ∨ s.rx.result ≠ .ok := by
  rw [← Bool.not_eq_true, gateOpen_iff, not_and_or]

theorem gateOpen_of_not {s : State} (h : ¬ (s.rx.state ≠ .done ∨ s.rx.result ≠ .ok)) : gateOpen s = true := by
  rwa [← gateOpen_eq_false_iff, Bool.not_eq_false] at h

theorem exec_rxRead_of_closed {s : State} (v : Half) (hclosed : gateOpen s = false) :
    exec (.rxRead v) s = .next (takeFault .noData s) := whenGateOpen_closed _ hclosed

/-- Behind the payload there is no data, whether or not the gate is open. -/
theorem exec_rxRead_of_past {s : State} {v : Half} (hpast : s.rx.len.toNat ≤ v.toNat) :
    exec (.rxRead v) s = .next (takeFault .noData s) := by
  cases hgate : gateOpen s with
  | false => exact exec_rxRead_of_closed v hgate
  | true => exact (whenGateOpen_open _ hgate).trans (if_pos hpast)

/-- The whole payload of an Ok datagram is in cells that exist (42_decode_validate.md R181, R186). -/
theorem RxInv.exists_read_of_ok {size : Nat} {r : RxEngine} (hinv : RxInv size r) (hdone : r.state = .done)
    (hok : r.result = .ok) {k : Nat} (hk : k < r.len.toNat) : k < size ∧ ∃ b, Memory.read r.buf k = some b := by
  obtain ⟨-, hcells, hfits, -, -⟩ := hinv
  obtain ⟨hcnt, hlen⟩ := hfits hok
  have hsize : k < size := hk.trans_le hlen
  exact ⟨hsize, Option.isSome_iff_exists.1 (hcells (by simp [hdone]) k hk (by omega) hsize)⟩

/-- With the gate open the invariant has a byte for every index of the payload. -/
theorem exec_rxRead_of_payload {s : State} {v : Half} (hinv : BlockInv s) (hgate : gateOpen s = true)
    (hv : v.toNat < s.rx.len.toNat) :
    ∃ b, Memory.read s.rx.buf v.toNat = some b ∧ exec (.rxRead v) s = .next (respond (b.setWidth 16) s) := by
  obtain ⟨hdone, hok⟩ := gateOpen_iff.1 hgate
  obtain ⟨hsize, b, hb⟩ := hinv.2.exists_read_of_ok hdone hok hv
  refine ⟨b, hb, ?_⟩
  rw [exec, execRxRead, whenGateOpen_open _ hgate, if_neg (by omega), readCell_ok hsize hb]

/-- Settles O23: the gate, the index, and the load, which the invariant says finds a byte. -/
theorem rxReadLoads : Obligations.RxReadLoads := fun _ v hinv =>
  ⟨rfl, fun hclosed => exec_rxRead_of_closed v (gateOpen_eq_false_iff.2 hclosed), exec_rxRead_of_past,
    fun hdone hok hv => exec_rxRead_of_payload hinv (gateOpen_iff.2 ⟨hdone, hok⟩) hv⟩

/-! ## GET -/

/-- The numbers of the registers are those below 8 (10_state.md R21). -/
theorem exists_regNumber_of_lt {n : Byte} (h : n.toNat < 8) : ∃ r, regNumber r = n := by
  have hnumbers : ∀ n : Byte, n.toNat < 8 →
      ∃ r ∈ [RegName.status, .crcAcc, .seq, .txLen, .rxCmd, .rxLen, .rxSeq, .rxCtrl], regNumber r = n := by decide
  obtain ⟨r, -, hr⟩ := hnumbers n h
  exact ⟨r, hr⟩

theorem regOf_regNumber (r : RegName) : regOf (regNumber r) = some r := by cases r <;> rfl

theorem regOf_of_unassigned {n : Byte} (h : 8 ≤ n.toNat) : regOf n = none := by
  unfold regOf
  split
  case h_9 => rfl
  all_goals omega

/-- The registers behind the gate are those from number 4 on (10_state.md R45). -/
theorem gated_iff {r : RegName} : gated r = true ↔ 4 ≤ (regNumber r).toNat := by cases r <;> decide

theorem exec_get_of_unassigned {n : Byte} (h : 8 ≤ n.toNat) (s : State) :
    exec (.get n) s = .next (takeFault .illegalCommand s) := by
  rw [exec, execGet, regOf_of_unassigned h]

theorem exec_get_regNumber (r : RegName) (s : State) :
    exec (.get (regNumber r)) s =
      if gated r then whenGateOpen s (.next (respond (regValue s r) s)) else .next (respond (regValue s r) s) := by
  rw [exec, execGet, regOf_regNumber]

/-- Behind the closed gate a register is not read (43_host_access.md R206). -/
theorem exec_get_of_closed {n : Byte} {s : State} (hclosed : gateOpen s = false) (h4 : 4 ≤ n.toNat)
    (h8 : n.toNat < 8) : exec (.get n) s = .next (takeFault .noData s) := by
  obtain ⟨r, rfl⟩ := exists_regNumber_of_lt h8
  rw [exec_get_regNumber, if_pos (gated_iff.2 h4), whenGateOpen_closed _ hclosed]

/-- A register that the gate does not hide is read as it stands. -/
theorem exec_get_of_readable {r : RegName} {s : State} (h : 4 ≤ (regNumber r).toNat → gateOpen s = true) :
    exec (.get (regNumber r)) s = .next (respond (regValue s r) s) := by
  rw [exec_get_regNumber]
  split
  next hgated => exact whenGateOpen_open _ (h (gated_iff.1 hgated))
  next => rfl

/-- A GET of an unassigned number is no command (30_encoding.md R103). -/
theorem illegalWord_get_of_unassigned {n : Byte} (h : 8 ≤ n.toNat) : IllegalWord (cmdWord 0x30 (byteArg n)) :=
  illegalWord_of_illegalFields (.inr (.inr (.inr ⟨opOf_cmdWord _ _, by rwa [imm8Of_byteArg]⟩)))

/-- Settles O25: the number is a register's or unassigned, and a register is behind the gate or not. -/
theorem getReadsRegister : Obligations.GetReadsRegister := by
  intro s
  refine ⟨fun n => congrArg _ (cmdWord_byteArg 0x30 n), rfl, rfl, rfl, rfl, fun hclosed n => ?closed,
    fun hdone hok => ?opened, fun n hn => ?unassigned, fun _ n hhigh => illegalWord_of_highByte (by decide) hhigh n⟩
  case closed => exact exec_get_of_closed (gateOpen_eq_false_iff.2 hclosed)
  case opened =>
    have hgate : gateOpen s = true := gateOpen_iff.2 ⟨hdone, hok⟩
    have hread (r : RegName) : exec (.get (regNumber r)) s = .next (respond (regValue s r) s) :=
      exec_get_of_readable fun _ => hgate
    exact ⟨hread .rxCmd, hread .rxLen, hread .rxSeq, hread .rxCtrl⟩
  case unassigned =>
    refine ⟨exec_get_of_unassigned hn s, ?_⟩
    have hword := illegalWord_get_of_unassigned hn
    rwa [cmdWord_byteArg] at hword

/-! ## The order of the tests -/

/-- The first test of a command that fires is its whole effect. -/
theorem exec_of_faultOf_eq_some {i : Instr} {s : State} {c : Cause} (h : faultOf i s = some c) :
    exec i s = .next (takeFault c s) := by
  cases i with
  | nop | crcClear | crcByte b | clrErr | frame f | autoCenter => cases h
  | txClear | txSend b | setSeq v =>
    obtain ⟨hsend, ⟨⟩⟩ := Option.ite_none_right_eq_some.1 h
    exact whenTxIdle_send _ hsend
  | txPush b =>
    obtain ⟨hsend, ⟨⟩⟩ | ⟨hidle, h⟩ := ite_cases h
    · exact whenTxIdle_send _ hsend
    · obtain ⟨hfull, ⟨⟩⟩ := Option.ite_none_right_eq_some.1 h
      exact exec_txPush_of_full b (txState_ne_send.1 hidle) hfull
  | rxRead v =>
    obtain ⟨hclosed, ⟨⟩⟩ | ⟨-, h⟩ := ite_cases h
    · exact exec_rxRead_of_closed v (gateOpen_eq_false_iff.2 hclosed)
    · obtain ⟨hpast, ⟨⟩⟩ := Option.ite_none_right_eq_some.1 h
      exact exec_rxRead_of_past hpast
  | rxRelease =>
    obtain ⟨hstate, ⟨⟩⟩ := Option.ite_none_right_eq_some.1 h
    exact exec_rxRelease_of_not_done hstate
  | get n =>
    obtain ⟨hn, ⟨⟩⟩ | ⟨hn, h⟩ := ite_cases h
    · exact exec_get_of_unassigned hn s
    · obtain ⟨⟨h4, hclosed⟩, ⟨⟩⟩ := Option.ite_none_right_eq_some.1 h
      exact exec_get_of_closed (gateOpen_eq_false_iff.2 hclosed) h4 (not_le.1 hn)

/-- With no test firing a command has its effect, which the invariant says it can have, and one ok response. -/
theorem exec_of_faultOf_eq_none {i : Instr} {s : State} (hinv : BlockInv s) (hi : i.isCommand = true)
    (h : faultOf i s = none) : ∃ v u, exec i s = .next (respond v u) ∧ CommandEffect i s u := by
  cases i with
  | nop | crcClear | crcByte b | clrErr => exact ⟨_, _, rfl, rfl⟩
  | txClear | txSend b | setSeq v =>
    have hidle : s.tx.state = .idle := by simpa [faultOf, txState_ne_send] using h
    exact ⟨_, _, whenTxIdle_idle _ hidle, hidle, rfl⟩
  | txPush b =>
    obtain ⟨-, h⟩ | ⟨hsend, h⟩ := ite_cases h
    · cases h
    · have hidle := txState_ne_send.1 hsend
      have hroom : s.tx.len.toNat < s.cfg.payloadMax.val := lt_of_le_of_ne hinv.1.1 (by simpa using h)
      exact ⟨0, _, answers_txPush b hidle hroom s.env, hidle, hroom, rfl⟩
  | rxRead v =>
    obtain ⟨-, h⟩ | ⟨hopen, h⟩ := ite_cases h
    · cases h
    · have hgate := gateOpen_of_not hopen
      obtain ⟨b, -, hexec⟩ := exec_rxRead_of_payload (v := v) hinv hgate (by simpa using h)
      exact ⟨_, _, hexec, hgate, rfl⟩
  | rxRelease =>
    have hdone : s.rx.state = .done := by simpa [faultOf] using h
    exact ⟨_, _, exec_rxRelease_of_done hdone, hdone, rfl⟩
  | get n =>
    obtain ⟨-, h⟩ | ⟨hn, h⟩ := ite_cases h
    · cases h
    · obtain ⟨-, h⟩ | ⟨hopen, -⟩ := ite_cases h
      · cases h
      · obtain ⟨r, rfl⟩ := exists_regNumber_of_lt (not_le.1 hn)
        exact ⟨_, _, exec_get_of_readable fun h4 => gateOpen_of_not fun hclosed => hopen ⟨h4, hclosed⟩, rfl⟩
  | frame f | autoCenter => cases hi

theorem CommandEffect.err_eq {i : Instr} {s u : State} (h : CommandEffect i s u) :
    u.err = if i = .clrErr then 0 else s.err := by
  cases i <;> simp_all [CommandEffect]

/-- Settles O14: the first test that fires is the outcome, and with none the command has its effect and answers ok. -/
theorem faultPriority : Obligations.FaultPriority := by
  intro s i hinv hi
  split
  next c hfault => exact exec_of_faultOf_eq_some hfault
  next hnone =>
    obtain ⟨v, u, hexec, heffect⟩ := exec_of_faultOf_eq_none hinv hi hnone
    exact ⟨v, respond v u, hexec, by rw [respond_env, heffect.env_eq]; rfl, heffect.err_eq⟩

end Sys2Proof.Machine
end

section
/-! What each agent's turn leaves alone (60_exceptions.md R250, R264): the source's turns, the sink's turn, the host's
turn. -/

namespace Sys2Proof.Machine

/-- Besides the RX engine a turn of the source changes only its own queue, whether it takes one byte or a datagram. -/
theorem step_source_or_datagram_frame {s t : State} {u : Turn} {ts : List Turn} (hu : u = .source ∨ u = .datagram)
    (hturns : s.env.turns = u :: ts) (h : step s = .next t) :
    t = { s with rx := t.rx, env := { s.env with turns := ts, rxIn := t.env.rxIn } } := by
  rw [step_eq_takeTurn hturns, takeTurn_source_or_datagram hu] at h
  obtain rfl := Host.Outcome.next.inj h
  rfl

/-- Besides the TX engine the sink's turn changes only what has been emitted. -/
theorem step_sink_frame {s t : State} {ts : List Turn} (hturns : s.env.turns = .sink :: ts) (h : step s = .next t) :
    t = { s with tx := t.tx, env := { s.env with turns := ts, txOut := t.env.txOut } } := by
  cases step_cases hturns h with
  | pass => rfl
  | emit => rfl
  | bytes hu => simp at hu

/-- A command writes nothing in the RX engine but its state and verdict; RX_RELEASE writes these two. -/
theorem CommandEffect.rx_frame {i : Instr} {s u : State} (h : CommandEffect i s u) :
    u.rx = { s.rx with state := u.rx.state, result := u.rx.result } := by
  rcases h.rx_cases with hrx | ⟨-, -, hrx⟩ <;> rw [hrx]

/-- The host's turn changes no port but its own two, and nothing in the RX engine beyond `CommandEffect.rx_frame`. -/
theorem step_host_frame {s t : State} {ts : List Turn} (hturns : s.env.turns = .host :: ts) (h : step s = .next t) :
    t.rx = { s.rx with state := t.rx.state, result := t.rx.result } ∧
    t.env = { s.env with turns := ts, hostIn := t.env.hostIn, respOut := t.env.respOut } ∧ t.cfg = s.cfg := by
  cases step_cases hturns h with
  | pass => exact ⟨rfl, rfl, rfl⟩
  | fault => exact ⟨rfl, rfl, rfl⟩
  | command w ws hin hi v hx =>
    refine ⟨hx.rx_frame, ?_, hx.cfg_eq⟩
    rw [respond_env, hx.env_eq]
    rfl
  | bytes hu => simp at hu

/-- Settles O58: each agent's turn by its own frame above. -/
theorem enginesIndependent : Obligations.EnginesIndependent := by
  intro s t u ts hturns h
  refine ⟨fun hu => step_source_or_datagram_frame hu hturns h, ?sink, ?host⟩
  case sink =>
    rintro rfl
    exact step_sink_frame hturns h
  case host =>
    rintro rfl
    exact step_host_frame hturns h

end Sys2Proof.Machine
end
